-- ==== Sys2Proof/Word.lean ====
section
/-! DEFINITION. The bit patterns that travel on the ports of the block, by their widths (00_scope.md R8, 10_state.md
R26, R27). The width W of a command's own values varies with its width code (30_encoding.md R62), so those are
`BitVec W`, as 10_state.md R29 has it. -/

namespace Sys2Proof

/-- One element of a Byte View, `bits 8` (00_scope.md section 4). -/
abbrev Byte := BitVec 8

/-- The command word CMD (10_state.md R26, 30_encoding.md R60). -/
abbrev Command := BitVec 16

/-- The operand buses A and B and the result bus RES (10_state.md R26, R27). -/
abbrev Bus := BitVec 128

/-- The amount port AMT: AMT_W = 32 bits, read unsigned (00_scope.md R8, 30_encoding.md R68). -/
abbrev Amount := BitVec 32

/-- The response port STATUS (10_state.md R27). -/
abbrev StatusCode := BitVec 2

/-- The response port CNT: CNT_W = 8 bits (00_scope.md R8, 10_state.md R27). -/
abbrev CountWord := BitVec 8

/-- A Byte View of n bytes: exactly n elements, element 0 first (10_state.md R29, 00_scope.md section 4). -/
abbrev Bytes (n : Nat) := Vector Byte n

end Sys2Proof
end

