-- ==== Sys2Proof/Config.lean ====
section
/-! DEFINITION. What the builder of one EBM core fixes and what the spec leaves open. Every constant here is OPAQUE:
no proof sees a value of it, so a theorem holds for every EBM core. BYTE_ORDER, AMT_W and CNT_W are fixed by 00_scope.md
R8 and need no constant: the byte order is `toBytes` (20_memory.md R41), the widths are those of Word.lean. -/

namespace Sys2Proof

/-- NATIVE_W, which 00_scope.md R8 leaves OPEN: "a multiple of 8 with 8 ≤ NATIVE_W ≤ 128". The byte width of the native
variant, less one: `Fin 16` admits exactly the sixteen legal widths. Log entry 3, safe. -/
opaque Config.nativeBytesLessOne : Fin 16

/-- LATENCY of a command word, which 00_scope.md R8 leaves OPEN: "finite, and no rule depends on it". No definition
reads it (70_reset_and_hazards.md R196: "a model represents no time"). Log entry 10, safe. -/
opaque Config.latency : Command → Nat

/-- The level of STATUS at a moment when the spec gives it none (10_state.md R30, 93_implementation_defined.md X2).
Free value, log entry 4, safe. -/
opaque Config.freeStatus : Nat → StatusCode

/-- The level of RES at a moment when the spec gives it none (10_state.md R27, R30; 93_implementation_defined.md X1, X2).
Free value, log entry 4, safe. -/
opaque Config.freeRes : Nat → Bus

/-- The level of CNT at a moment when the spec gives it none (10_state.md R27, R30; 93_implementation_defined.md X1, X2).
Free value, log entry 4, safe. -/
opaque Config.freeCnt : Nat → CountWord

end Sys2Proof
end

