-- ==== Sys2Proof/Syntax.lean ====
section
/-! DEFINITION. The twenty operations of 00_scope.md R4 (every row of spec/opcode_table.json), each with the width code and
the signedness tag of its command word (30_encoding.md R60). An instruction of this type is well formed by its type: the
width codes 110 and 111 have no constructor (30_encoding.md R66). What can be ill formed is a command WORD, and
WellFormed.lean says which are. -/

namespace Sys2Proof

/-- The six widths of 30_encoding.md R62, by their width codes 000 to 101. -/
inductive Width where
  | w8
  | w16
  | w32
  | w64
  | w128
  /-- NATIVE_W, 00_scope.md R8. -/
  | wn
  deriving DecidableEq, Repr

/-- The signedness tag S of 30_encoding.md R60: "0 = unsigned type, 1 = signed type". No operation reads it (R63). -/
inductive Signedness where
  | unsigned
  | signed
  deriving DecidableEq, Repr

/-- The command of one transaction: operation, width, signedness tag (30_encoding.md R60, R61). The operands are no part of
it: "No operand is an immediate of the command word" (R68). -/
inductive Instr where
  | ebmToBytes (w : Width) (sg : Signedness)
  | ebmFromBytes (w : Width) (sg : Signedness)
  | ebmAnd (w : Width) (sg : Signedness)
  | ebmOr (w : Width) (sg : Signedness)
  | ebmXor (w : Width) (sg : Signedness)
  | ebmNot (w : Width) (sg : Signedness)
  | ebmLeftShift (w : Width) (sg : Signedness)
  | ebmRightShift (w : Width) (sg : Signedness)
  | ebmRotateLeft (w : Width) (sg : Signedness)
  | ebmRotateRight (w : Width) (sg : Signedness)
  | ebmPopulationCount (w : Width) (sg : Signedness)
  | ebmLeadingZeros (w : Width) (sg : Signedness)
  | ebmTrailingZeros (w : Width) (sg : Signedness)
  | ebmLeadingOnes (w : Width) (sg : Signedness)
  | ebmTrailingOnes (w : Width) (sg : Signedness)
  | ebmAdd (w : Width) (sg : Signedness)
  | ebmSubtract (w : Width) (sg : Signedness)
  | ebmMultiply (w : Width) (sg : Signedness)
  | ebmDivide (w : Width) (sg : Signedness)
  | ebmModulo (w : Width) (sg : Signedness)
  deriving DecidableEq, Repr

/-- Why a command word is reserved, in the order in which 30_encoding.md R71 looks. -/
inductive Reserved where
  /-- CMD[15:9] is not zero (30_encoding.md R64). -/
  | rsvNonzero
  /-- CMD[4:0] is not in the table of 30_encoding.md R61. -/
  | opUnassigned
  /-- CMD[7:5] is 110 or 111 (30_encoding.md R66). -/
  | widReserved
  deriving DecidableEq, Repr

end Sys2Proof
end

