-- ==== Sys2Proof/WellFormed.lean ====
section
/-! DEFINITION. Which command words are admitted, written from 30_encoding.md R65 (the list of what is reserved), not from the
decoder: that the decoder of Decode.lean accepts exactly these words is a statement. A caller owes the block an admitted
word (70_reset_and_hazards.md R195 (a)). -/

namespace Sys2Proof

/-- 30_encoding.md R64: the RSV field, CMD[15:9], is zero. -/
def Command.rsvClear (cmd : Command) : Bool := cmd.toNat / 512 == 0

/-- 30_encoding.md R65: OP = CMD[4:0] is none of the twelve unassigned codes. -/
def Command.opAssigned (cmd : Command) : Bool :=
  !([0x02, 0x03, 0x0C, 0x0D, 0x0E, 0x0F, 0x15, 0x16, 0x17, 0x1D, 0x1E, 0x1F].contains (cmd.toNat % 32))

/-- 30_encoding.md R65, R66: WID = CMD[7:5] is neither 110 nor 111. -/
def Command.widAssigned (cmd : Command) : Bool := !([6, 7].contains (cmd.toNat / 32 % 8))

/-- An admitted command word: one that 30_encoding.md R65 does not reserve. -/
def Command.wellFormed (cmd : Command) : Bool := cmd.rsvClear && cmd.opAssigned && cmd.widAssigned

end Sys2Proof
end

