-- ==== Sys2Proof/Decode.lean ====
section
/-! DEFINITION. The decoder of 30_encoding.md R71, total on every 16-bit word and rejecting by name, and after it the encoder,
written from the same tables (R60 to R63). A command word is presented whole on CMD (R60): it has no byte order. -/

namespace Sys2Proof

/-- CMD[15:9] (30_encoding.md R60). -/
def rsvField (cmd : Command) : BitVec 7 := cmd.extractLsb' 9 7

/-- CMD[8] (30_encoding.md R60). -/
def signField (cmd : Command) : Bool := cmd.getLsbD 8

/-- CMD[7:5] (30_encoding.md R60). -/
def widField (cmd : Command) : BitVec 3 := cmd.extractLsb' 5 3

/-- CMD[4:0] (30_encoding.md R60). -/
def opField (cmd : Command) : BitVec 5 := cmd.extractLsb' 0 5

/-- The operation table of 30_encoding.md R61. -/
def opOfCode (op : BitVec 5) : Option (Width → Signedness → Instr) :=
  match op.toNat with
  | 0x00 => some .ebmToBytes
  | 0x01 => some .ebmFromBytes
  | 0x04 => some .ebmAnd
  | 0x05 => some .ebmOr
  | 0x06 => some .ebmXor
  | 0x07 => some .ebmNot
  | 0x08 => some .ebmLeftShift
  | 0x09 => some .ebmRightShift
  | 0x0A => some .ebmRotateLeft
  | 0x0B => some .ebmRotateRight
  | 0x10 => some .ebmPopulationCount
  | 0x11 => some .ebmLeadingZeros
  | 0x12 => some .ebmTrailingZeros
  | 0x13 => some .ebmLeadingOnes
  | 0x14 => some .ebmTrailingOnes
  | 0x18 => some .ebmAdd
  | 0x19 => some .ebmSubtract
  | 0x1A => some .ebmMultiply
  | 0x1B => some .ebmDivide
  | 0x1C => some .ebmModulo
  | _ => none

/-- The width table of 30_encoding.md R62. -/
def widthOfCode (wid : BitVec 3) : Option Width :=
  match wid.toNat with
  | 0 => some .w8
  | 1 => some .w16
  | 2 => some .w32
  | 3 => some .w64
  | 4 => some .w128
  | 5 => some .wn
  | _ => none

/-- The signedness tag (30_encoding.md R60, R63). -/
def signOfBit (bit : Bool) : Signedness := if bit then .signed else .unsigned

/-- `Decode` of 30_encoding.md R71, in its order: RSV, then OP, then WID. -/
def decode (cmd : Command) : Except Reserved Instr :=
  if rsvField cmd = 0#7 then
    match opOfCode (opField cmd) with
    | none => .error .opUnassigned
    | some op =>
      match widthOfCode (widField cmd) with
      | none => .error .widReserved
      | some w => .ok (op w (signOfBit (signField cmd)))
  else .error .rsvNonzero

/-! The encoder. -/

/-- OP of an instruction (30_encoding.md R61). -/
def Instr.opcode : Instr → BitVec 5
  | .ebmToBytes _ _ => 0x00#5
  | .ebmFromBytes _ _ => 0x01#5
  | .ebmAnd _ _ => 0x04#5
  | .ebmOr _ _ => 0x05#5
  | .ebmXor _ _ => 0x06#5
  | .ebmNot _ _ => 0x07#5
  | .ebmLeftShift _ _ => 0x08#5
  | .ebmRightShift _ _ => 0x09#5
  | .ebmRotateLeft _ _ => 0x0A#5
  | .ebmRotateRight _ _ => 0x0B#5
  | .ebmPopulationCount _ _ => 0x10#5
  | .ebmLeadingZeros _ _ => 0x11#5
  | .ebmTrailingZeros _ _ => 0x12#5
  | .ebmLeadingOnes _ _ => 0x13#5
  | .ebmTrailingOnes _ _ => 0x14#5
  | .ebmAdd _ _ => 0x18#5
  | .ebmSubtract _ _ => 0x19#5
  | .ebmMultiply _ _ => 0x1A#5
  | .ebmDivide _ _ => 0x1B#5
  | .ebmModulo _ _ => 0x1C#5

/-- The width of an instruction's values. -/
def Instr.width : Instr → Width
  | .ebmToBytes w _ | .ebmFromBytes w _ | .ebmAnd w _ | .ebmOr w _ | .ebmXor w _ | .ebmNot w _
  | .ebmLeftShift w _ | .ebmRightShift w _ | .ebmRotateLeft w _ | .ebmRotateRight w _
  | .ebmPopulationCount w _ | .ebmLeadingZeros w _ | .ebmTrailingZeros w _ | .ebmLeadingOnes w _
  | .ebmTrailingOnes w _ | .ebmAdd w _ | .ebmSubtract w _ | .ebmMultiply w _ | .ebmDivide w _
  | .ebmModulo w _ => w

/-- The signedness tag of an instruction. -/
def Instr.signedness : Instr → Signedness
  | .ebmToBytes _ sg | .ebmFromBytes _ sg | .ebmAnd _ sg | .ebmOr _ sg | .ebmXor _ sg | .ebmNot _ sg
  | .ebmLeftShift _ sg | .ebmRightShift _ sg | .ebmRotateLeft _ sg | .ebmRotateRight _ sg
  | .ebmPopulationCount _ sg | .ebmLeadingZeros _ sg | .ebmTrailingZeros _ sg | .ebmLeadingOnes _ sg
  | .ebmTrailingOnes _ sg | .ebmAdd _ sg | .ebmSubtract _ sg | .ebmMultiply _ sg | .ebmDivide _ sg
  | .ebmModulo _ sg => sg

/-- WID of a width (30_encoding.md R62). -/
def Width.code : Width → BitVec 3
  | .w8 => 0b000#3
  | .w16 => 0b001#3
  | .w32 => 0b010#3
  | .w64 => 0b011#3
  | .w128 => 0b100#3
  | .wn => 0b101#3

/-- S of a signedness tag (30_encoding.md R60). -/
def Signedness.code : Signedness → BitVec 1
  | .unsigned => 0#1
  | .signed => 1#1

/-- The command word of an instruction: RSV = 0, then S, WID and OP (30_encoding.md R60). -/
def encode (i : Instr) : Command := 0#7 ++ i.signedness.code ++ i.width.code ++ i.opcode

/-- The instruction read from a row's word of `nbits` bits; the bits above are zero. A command is exactly one 16-bit word
(30_encoding.md R72), so a number of more bits is none. -/
def decodeTableWord (nbits w : Nat) : Option Instr :=
  if w % 2 ^ nbits < 65536 then (decode (BitVec.ofNat 16 (w % 2 ^ nbits))).toOption else none

end Sys2Proof
end

