-- ==== Sys2Proof/Machine/State.lean ====
section
/-! DEFINITION. The state of the block. It has no architectural state (10_state.md R20): State holds the transactions in
flight and the response on the ports, the only rows of the state inventory of 10_state.md R30 that exist at all (a
refused transaction among the former), and one counter of the model's own for free values. -/

namespace Sys2Proof.Machine

/-- The fields of a request (10_state.md R26). -/
structure Request where
  cmd : Command
  a : Bus
  b : Bus
  amt : Amount
  deriving DecidableEq, Repr

/-- The error taxonomy, which "has exactly one error kind" (60_exceptions.md R170). -/
inductive ErrorKind where
  /-- The divisor of a divide or modulo is the zero value of its width (60_exceptions.md R171). -/
  | divisionByZero
  deriving DecidableEq, Repr

/-- The response of one transaction (10_state.md R27), "a two-variant result type" (60_exceptions.md R174). -/
inductive Response where
  /-- STATUS = 00, with RES and CNT. -/
  | ok (res : Bus) (cnt : CountWord)
  /-- `Err`: STATUS = 01, "with no payload" (60_exceptions.md R171): RES and CNT have no defined value. -/
  | err (e : ErrorKind)
  deriving DecidableEq, Repr

/-- One transaction in flight. `caller` is the model's own tag for whose it is: the block needs no identifier
(60_exceptions.md R182). DESIGN CHOICE, log entry 2, safe. `patience` is the model's own too: how many requests presented
later may still be answered before this one. It is finite, as the time to a response is (70_reset_and_hazards.md R195 (e)).
DESIGN CHOICE, log entry 15, safe. -/
structure Transaction where
  caller : Nat
  patience : Nat
  request : Request
  deriving DecidableEq, Repr

/-- The response that stands on the response ports, and the caller whose transaction it answers. -/
structure Delivery where
  caller : Nat
  response : Response
  deriving DecidableEq, Repr

/-- A request that was refused (30_encoding.md R65): its caller has no response. -/
structure RefusedRequest where
  caller : Nat
  why : Reserved
  deriving DecidableEq, Repr

/-- The state of the machine (10_state.md R30). -/
structure State where
  /-- The transactions in flight, in the order in which the block answers them (10_state.md R30; log entry 1). -/
  requests : List Transaction
  /-- The response on the ports; none between transactions, when "they hold no architectural value" (10_state.md R30). -/
  response : Option Delivery
  /-- The requests that were refused: in flight for their callers, without a response ever (30_encoding.md R65; log entry 8). -/
  refused : List RefusedRequest
  /-- The model's own counter of moments, on which the free values of Config depend (log entry 4). -/
  draws : Nat
  deriving DecidableEq, Repr

/-- Why the machine stops with a fault: never. "No other error kind exists" beside DivisionByZero (60_exceptions.md R170), and
that one is a response after which "the next request is executed by `Exec` like any other" (R176). No constructor, so no
meaning and no step raises one. -/
inductive Fault : Type
  deriving DecidableEq, Repr

/-- Why the model gives no meaning to an instruction. A reserved command word is no instruction: the refusal of such a request
is an outcome of that one transaction (30_encoding.md R65), which no other caller's transaction can observe (20_memory.md
R49), so it is a next state (`refuse`) and no stop of the machine. -/
inductive Refusal where
  /-- Raised by `exec` for an instruction that has no meaning yet (none is left). Safe: the model stops. -/
  | notModelled (mnemonic : String)
  deriving DecidableEq, Repr

/-- The machine right after reset: no transaction pending and no response delivered (70_reset_and_hazards.md R190). `draws`
is the model's own, its value here a DESIGN CHOICE (log entry 4). -/
def State.reset : State := { requests := [], response := none, refused := [], draws := 0 }

end Sys2Proof.Machine
end

