-- ==== Sys2Proof/Machine/Operands.lean ====
section
/-! DEFINITION. Operand assembly and result placement: how a command takes its operands from the request
(30_encoding.md R67, R68) and how its result is placed in the response (R69). -/

namespace Sys2Proof

/-- n = W/8 (30_encoding.md R62). -/
def Width.bytes : Width → Nat
  | .w8 => 1
  | .w16 => 2
  | .w32 => 4
  | .w64 => 8
  | .w128 => 16
  | .wn => Config.nativeBytesLessOne.val + 1

/-- W (30_encoding.md R62), a multiple of 8 at every width (00_scope.md R8). -/
abbrev Width.bits (w : Width) : Nat := 8 * w.bytes

end Sys2Proof

namespace Sys2Proof.Machine

/-- The first operand a: "bits 127..W of A are ignored" (30_encoding.md R68). -/
def Request.valueA (r : Request) (w : Width) : BitVec w.bits := r.a.setWidth w.bits

/-- The second operand b: "bits 127..W of B are ignored" (30_encoding.md R68). -/
def Request.valueB (r : Request) (w : Width) : BitVec w.bits := r.b.setWidth w.bits

/-- The amount k, "unsigned, never sign-extended" (30_encoding.md R68). -/
def Request.amount (r : Request) : Nat := r.amt.toNat

/-- Byte lane i of a bus: bits 8i+7..8i (30_encoding.md R68). -/
def lane (bus : Bus) (i : Nat) : Byte := bus.extractLsb' (8 * i) 8

/-- The input byte sequence of from_bytes: lanes 0..n-1 of A (30_encoding.md R68). -/
def Request.lanesA (r : Request) (n : Nat) : Bytes n := Vector.ofFn fun i => lane r.a i.val

/-- Bytes placed side by side in a pattern of W bits, element i in bits 8i+7..8i: `bs[m-1] ++ … ++ bs[0]`, with zeros
above (30_encoding.md R69, 40_byteview.md R81). -/
def concatBytes (W : Nat) (bs : List Byte) : BitVec W := bs.foldr (fun b r => r <<< 8 ||| b.setWidth W) 0#W

/-- A value result: `RES <- zext_128(r); CNT <- 0` (30_encoding.md R69). -/
def valueResponse {W : Nat} (r : BitVec W) : Response := .ok (r.setWidth 128) 0#8

/-- A byte result: `RES[8i+7:8i] <- bs[i]`, zeros above, `CNT <- 0` (30_encoding.md R69). -/
def bytesResponse {n : Nat} (bs : Bytes n) : Response := .ok (concatBytes 128 bs.toList) 0#8

/-- A count result: `RES <- 0; CNT <- bv_8(c)` (30_encoding.md R69, 43_count.md R126). -/
def countResponse (c : Nat) : Response := .ok 0#128 (BitVec.ofNat 8 c)

/-- The operand forms of 30_encoding.md R67 and R73. -/
inductive OperandForm where
  /-- `a`. -/
  | unary
  /-- `a, b`. -/
  | binary
  /-- `a, k`. -/
  | amount
  /-- `[bs[0], …, bs[n-1]]`. -/
  | byteList
  deriving DecidableEq, Repr

/-- Which fields of the request an instruction reads (30_encoding.md R67). -/
def operandForm : Instr → OperandForm
  | .ebmToBytes _ _ => .unary
  | .ebmFromBytes _ _ => .byteList
  | .ebmAnd _ _ | .ebmOr _ _ | .ebmXor _ _ => .binary
  | .ebmNot _ _ => .unary
  | .ebmLeftShift _ _ | .ebmRightShift _ _ | .ebmRotateLeft _ _ | .ebmRotateRight _ _ => .amount
  | .ebmPopulationCount _ _ | .ebmLeadingZeros _ _ | .ebmTrailingZeros _ _ | .ebmLeadingOnes _ _
  | .ebmTrailingOnes _ _ => .unary
  | .ebmAdd _ _ | .ebmSubtract _ _ | .ebmMultiply _ _ | .ebmDivide _ _ | .ebmModulo _ _ => .binary

end Sys2Proof.Machine
end

