-- ==== Sys2Proof/Machine/Flags.lean ====
section
/-! DEFINITION. The block has no flags and no condition codes (10_state.md R23), so there is no flag computation. What stands here
is the one status it has, the STATUS code of a response, and the levels of the response ports as a caller could probe
them (10_state.md R27): where the spec gives a port no value, the level is a free value (log entry 4). -/

namespace Sys2Proof.Machine

/-- STATUS of a response: `00` = OK, `01` = DIVZ (10_state.md R27). -/
def Response.status : Response → StatusCode
  | .ok _ _ => 0b00#2
  | .err .divisionByZero => 0b01#2

/-- The level of STATUS; free while no response stands on the ports (10_state.md R30). -/
def State.statusPort (s : State) : StatusCode :=
  match s.response with
  | some d => d.response.status
  | none => Config.freeStatus s.draws

/-- The level of RES; free in a DIVZ response (10_state.md R27) and while no response stands on the ports (R30). -/
def State.resPort (s : State) : Bus :=
  match s.response with
  | some { caller := _, response := .ok res _ } => res
  | some { caller := _, response := .err _ } => Config.freeRes s.draws
  | none => Config.freeRes s.draws

/-- The level of CNT; free in a DIVZ response (10_state.md R27) and while no response stands on the ports (R30). -/
def State.cntPort (s : State) : CountWord :=
  match s.response with
  | some { caller := _, response := .ok _ cnt } => cnt
  | some { caller := _, response := .err _ } => Config.freeCnt s.draws
  | none => Config.freeCnt s.draws

end Sys2Proof.Machine
end

