-- ==== Sys2Proof/Machine/Ops.lean ====
section
/-! DEFINITION. The shared operations: answering a request, refusing one, the error outcome, idling, reading the next command
word, and what callers and reset do to the block from outside. There is no memory and no register to operate on (10_state.md
R21, 20_memory.md R40), and no trap entry or return (60_exceptions.md R175, R176). -/

namespace Sys2Proof.Machine

/-- What a step answers. -/
abbrev Result := Host.Outcome State Fault Refusal

/-- Raising an error, the one shared operation: the outcome is the response `Err` of the failing transaction itself
(60_exceptions.md R174). It "saves no state, changes no mode or mask, uses no stack, and transfers control to no vector"
(R175), so it is a response and nothing more. -/
def raise (e : ErrorKind) : Response := .err e

/-- The response of an operation that can fail: a value, or the error (10_state.md R28). -/
def outcomeResponse {W : Nat} : Except ErrorKind (BitVec W) → Response
  | .ok r => valueResponse r
  | .error e => raise e

/-- Nothing is in flight: the block does nothing, and no response stands on the ports (10_state.md R30; log entry 5). -/
def State.idle (s : State) : State := { s with response := none, draws := s.draws + 1 }

/-- The first transaction in flight gets its one response and leaves (10_state.md R28, 70_reset_and_hazards.md R194). The
others stay as they are. With nothing in flight there is nothing to answer (log entry 5). -/
def answer (op : Request → Response) (s : State) : Result :=
  match s.requests with
  | [] => .next s.idle
  | t :: rest =>
    .next
      { requests := rest
        response := some { caller := t.caller, response := op t.request }
        refused := s.refused
        draws := s.draws + 1 }

/-- The first transaction in flight is refused: it leaves with no response, no operand of it is read (60_exceptions.md R178),
and the others stay as they are, since no transaction can observe another (20_memory.md R49). Its caller still waits
(log entry 8). -/
def refuse (why : Reserved) (s : State) : Result :=
  match s.requests with
  | [] => .next s.idle
  | t :: rest =>
    .next
      { requests := rest
        response := none
        refused := s.refused ++ [{ caller := t.caller, why := why }]
        draws := s.draws + 1 }

/-- The command word the block reads next: CMD of the first transaction in flight (20_memory.md R51). -/
def State.nextCommand (s : State) : Option Command := s.requests.head?.map (·.request.cmd)

/-- The callers that have a transaction outstanding: waiting for an answer, or refused. -/
def State.callers (s : State) : List Nat := s.requests.map (·.caller) ++ s.refused.map (·.caller)

/-- A request presented later is to be answered earlier: one time less that this may happen again. -/
def Transaction.overtaken (t : Transaction) : Transaction := { t with patience := t.patience - 1 }

/-- The first place of the order before which no transaction has lost its patience: none there may be overtaken. -/
def firstFreePlace : List Transaction → Nat
  | [] => 0
  | t :: ts => if firstFreePlace ts = 0 ∧ t.patience ≠ 0 then 0 else firstFreePlace ts + 1

/-- A transaction takes place number `place` in the order of answering, or the first free place after it (log entry 15). -/
def enter (place : Nat) (t : Transaction) (ts : List Transaction) : List Transaction :=
  let p := max place (firstFreePlace ts)
  ts.take p ++ t :: (ts.drop p).map Transaction.overtaken

/-- A caller presents a request, at any place in the order of answering that the patience of the others allows: 20_memory.md
R49 allows every interleaving, and each response still comes after a finite time (70_reset_and_hazards.md R195 (e)). A
caller with a transaction outstanding presents none: it "has at most one transaction outstanding at a time" (R194; log
entry 12). -/
def State.issue (place : Nat) (t : Transaction) (s : State) : State :=
  if t.caller ∈ s.callers then s else { s with requests := enter place t s.requests }

/-- A caller whose request was refused waits for it no longer, and may present another. The spec does not say whether it
does (log entry 8). -/
def State.giveUp (caller : Nat) (s : State) : State :=
  { s with refused := s.refused.filter (·.caller ≠ caller) }

/-- Reset is asserted: every transaction in flight is abandoned, with no response (70_reset_and_hazards.md R191), and the
ports are unspecified again (R190). -/
def State.assertReset (s : State) : State :=
  { requests := [], response := none, refused := [], draws := s.draws + 1 }

/-- The command word of the first transaction in flight becomes `cmd`. With none in flight, caller 0 presents `cmd` with
all-zero operands; if a refused request of caller 0 still stands, it gives that up first, since it "has at most one
transaction outstanding at a time" (70_reset_and_hazards.md R194). Who presents, with what operands, and that it gives up
are the model's choice. DESIGN CHOICE, log entries 6 and 8, safe. -/
def State.presentCommand (cmd : Command) (s : State) : State :=
  match s.requests with
  | [] =>
    { s.giveUp 0 with requests :=
        [{ caller := 0, patience := 0, request := { cmd := cmd, a := 0#128, b := 0#128, amt := 0#32 } }] }
  | t :: rest => { s with requests := { t with request := { t.request with cmd := cmd } } :: rest }

end Sys2Proof.Machine
end

