-- ==== Sys2Proof/Machine/Arith.lean ====
section
/-! DEFINITION. The Arithmetic Unit (44_arith.md). Every result is exact modulo 2^W (R140); the signed forms work on the same bit
patterns (R150), quotient and remainder included (90_conflicts.md C3). -/

namespace Sys2Proof.Machine

/-- add: `bv_W(uint(a) + uint(b))` (44_arith.md R141). -/
def add {W : Nat} (a b : BitVec W) : BitVec W := BitVec.ofNat W (a.toNat + b.toNat)

/-- subtract: `bv_W(uint(a) - uint(b))`, the difference an integer (44_arith.md R142). -/
def subtract {W : Nat} (a b : BitVec W) : BitVec W := BitVec.ofInt W ((a.toNat : Int) - (b.toNat : Int))

/-- multiply: `bv_W(uint(a) * uint(b))` (44_arith.md R143). -/
def multiply {W : Nat} (a b : BitVec W) : BitVec W := BitVec.ofNat W (a.toNat * b.toNat)

/-- The one quotient-and-remainder computation of 44_arith.md R151, or DivisionByZero (R144, R145). -/
def divMod {W : Nat} (a b : BitVec W) : Except ErrorKind (BitVec W × BitVec W) :=
  if b.toNat = 0 then .error .divisionByZero
  else .ok (BitVec.ofNat W (a.toNat / b.toNat), BitVec.ofNat W (a.toNat % b.toNat))

/-- divide returns the quotient (44_arith.md R144). -/
def divide {W : Nat} (a b : BitVec W) : Except ErrorKind (BitVec W) := (divMod a b).map Prod.fst

/-- modulo returns the remainder (44_arith.md R145). -/
def modulo {W : Nat} (a b : BitVec W) : Except ErrorKind (BitVec W) := (divMod a b).map Prod.snd

/-- ebm_add (44_arith.md R141). -/
def execAdd (w : Width) (_sg : Signedness) (s : State) : Result :=
  answer (fun r => valueResponse (add (r.valueA w) (r.valueB w))) s

/-- ebm_subtract (44_arith.md R142). -/
def execSubtract (w : Width) (_sg : Signedness) (s : State) : Result :=
  answer (fun r => valueResponse (subtract (r.valueA w) (r.valueB w))) s

/-- ebm_multiply (44_arith.md R143). -/
def execMultiply (w : Width) (_sg : Signedness) (s : State) : Result :=
  answer (fun r => valueResponse (multiply (r.valueA w) (r.valueB w))) s

/-- ebm_divide (44_arith.md R144). -/
def execDivide (w : Width) (_sg : Signedness) (s : State) : Result :=
  answer (fun r => outcomeResponse (divide (r.valueA w) (r.valueB w))) s

/-- ebm_modulo (44_arith.md R145). -/
def execModulo (w : Width) (_sg : Signedness) (s : State) : Result :=
  answer (fun r => outcomeResponse (modulo (r.valueA w) (r.valueB w))) s

end Sys2Proof.Machine
end

