-- ==== Sys2Proof/Machine/ByteView.lean ====
section
/-! DEFINITION. The Byte View codec (40_byteview.md), little-endian (20_memory.md R41). -/

namespace Sys2Proof.Machine

/-- `bs[i] <- a[8i+7 : 8i]` for i in 0..n-1 (40_byteview.md R80, 20_memory.md R41). -/
def toBytes {n : Nat} (a : BitVec (8 * n)) : Bytes n := Vector.ofFn fun i => a.extractLsb' (8 * i.val) 8

/-- `r <- bs[n-1] ++ … ++ bs[0]` (40_byteview.md R81). -/
def fromBytes {n : Nat} (bs : Bytes n) : BitVec (8 * n) := concatBytes (8 * n) bs.toList

/-- ebm_to_bytes (40_byteview.md R80). -/
def execToBytes (w : Width) (_sg : Signedness) (s : State) : Result :=
  answer (fun r => bytesResponse (toBytes (n := w.bytes) (r.valueA w))) s

/-- ebm_from_bytes (40_byteview.md R81). -/
def execFromBytes (w : Width) (_sg : Signedness) (s : State) : Result :=
  answer (fun r => valueResponse (fromBytes (r.lanesA w.bytes))) s

end Sys2Proof.Machine
end

