-- ==== Sys2Proof/Machine/Count.lean ====
section
/-! DEFINITION. The Counting Unit (43_count.md). A count is a natural number in [0, W] (R126). "Leading" is the most
significant end, by bit significance and not by storage order (20_memory.md R43). -/

namespace Sys2Proof.Machine

/-- The number of 1 bits among the 8 bits of x (43_count.md R120, R128). -/
def popcount8 (x : Byte) : Nat := ((List.range 8).map fun i => (x.getLsbD i).toNat).sum

/-- population_count: the sum over the bytes (43_count.md R120). -/
def populationCount {n : Nat} (a : BitVec (8 * n)) : Nat := ((toBytes a).toList.map popcount8).sum

/-- How many bits equal `v` in an unbroken run from bit i-1 downward (43_count.md R121, R123: `for i in W-1 downto 0`). -/
def runDown {W : Nat} (v : Bool) (a : BitVec W) : Nat → Nat
  | 0 => 0
  | i + 1 => if a.getLsbD i = v then runDown v a i + 1 else 0

/-- How many of the `m` bits from bit i upward equal `v` in an unbroken run (43_count.md R122, R124: `for i in 0 .. W-1`). -/
def runUp {W : Nat} (v : Bool) (a : BitVec W) (i : Nat) : Nat → Nat
  | 0 => 0
  | m + 1 => if a.getLsbD i = v then runUp v a (i + 1) m + 1 else 0

/-- leading_zeros (43_count.md R121). -/
def leadingZeros {W : Nat} (a : BitVec W) : Nat := runDown false a W

/-- trailing_zeros (43_count.md R122). -/
def trailingZeros {W : Nat} (a : BitVec W) : Nat := runUp false a 0 W

/-- leading_ones (43_count.md R123). -/
def leadingOnes {W : Nat} (a : BitVec W) : Nat := runDown true a W

/-- trailing_ones (43_count.md R124). -/
def trailingOnes {W : Nat} (a : BitVec W) : Nat := runUp true a 0 W

/-- ebm_population_count (43_count.md R120). -/
def execPopulationCount (w : Width) (_sg : Signedness) (s : State) : Result :=
  answer (fun r => countResponse (populationCount (n := w.bytes) (r.valueA w))) s

/-- ebm_leading_zeros (43_count.md R121). -/
def execLeadingZeros (w : Width) (_sg : Signedness) (s : State) : Result :=
  answer (fun r => countResponse (leadingZeros (r.valueA w))) s

/-- ebm_trailing_zeros (43_count.md R122). -/
def execTrailingZeros (w : Width) (_sg : Signedness) (s : State) : Result :=
  answer (fun r => countResponse (trailingZeros (r.valueA w))) s

/-- ebm_leading_ones (43_count.md R123). -/
def execLeadingOnes (w : Width) (_sg : Signedness) (s : State) : Result :=
  answer (fun r => countResponse (leadingOnes (r.valueA w))) s

/-- ebm_trailing_ones (43_count.md R124). -/
def execTrailingOnes (w : Width) (_sg : Signedness) (s : State) : Result :=
  answer (fun r => countResponse (trailingOnes (r.valueA w))) s

end Sys2Proof.Machine
end

