-- ==== Sys2Proof/Machine/Logic.lean ====
section
/-! DEFINITION. The Logic Unit (41_logic.md), on the whole W-bit pattern: "A model may use either form" (R94). The byte-by-byte
form stands in Reference.lean. -/

namespace Sys2Proof.Machine

/-- ebm_and: `a & b` (41_logic.md R90). -/
def execAnd (w : Width) (_sg : Signedness) (s : State) : Result :=
  answer (fun r => valueResponse (r.valueA w &&& r.valueB w)) s

/-- ebm_or: `a | b` (41_logic.md R91). -/
def execOr (w : Width) (_sg : Signedness) (s : State) : Result :=
  answer (fun r => valueResponse (r.valueA w ||| r.valueB w)) s

/-- ebm_xor: `a ^ b` (41_logic.md R92). -/
def execXor (w : Width) (_sg : Signedness) (s : State) : Result :=
  answer (fun r => valueResponse (r.valueA w ^^^ r.valueB w)) s

/-- ebm_not: `~a`; B is ignored (41_logic.md R93). -/
def execNot (w : Width) (_sg : Signedness) (s : State) : Result :=
  answer (fun r => valueResponse (~~~ r.valueA w)) s

end Sys2Proof.Machine
end

