-- ==== Sys2Proof/Machine/Shift.lean ====
section
/-! DEFINITION. The Shift/Rotate Unit (42_shift.md). Shifts are logical at every width and tag, an amount of W or more gives
zero, and a rotate reduces its amount modulo W (R100). -/

namespace Sys2Proof.Machine

/-- left_shift (42_shift.md R101). -/
def leftShift {W : Nat} (a : BitVec W) (k : Nat) : BitVec W :=
  if k ≥ W then 0#W else BitVec.ofNat W (a.toNat <<< k)

/-- right_shift (42_shift.md R102). -/
def rightShift {W : Nat} (a : BitVec W) (k : Nat) : BitVec W :=
  if k ≥ W then 0#W else BitVec.ofNat W (a.toNat >>> k)

/-- rotate_left: `a[W-1-j : 0] ++ a[W-1 : W-j]` with j = k mod W (42_shift.md R103). -/
def rotateLeft {W : Nat} (a : BitVec W) (k : Nat) : BitVec W :=
  let j := k % W
  if j = 0 then a else (a.extractLsb' 0 (W - j) ++ a.extractLsb' (W - j) j).setWidth W

/-- rotate_right: `a[j-1 : 0] ++ a[W-1 : j]` with j = k mod W (42_shift.md R104). -/
def rotateRight {W : Nat} (a : BitVec W) (k : Nat) : BitVec W :=
  let j := k % W
  if j = 0 then a else (a.extractLsb' 0 j ++ a.extractLsb' j (W - j)).setWidth W

/-- ebm_left_shift (42_shift.md R101). -/
def execLeftShift (w : Width) (_sg : Signedness) (s : State) : Result :=
  answer (fun r => valueResponse (leftShift (r.valueA w) r.amount)) s

/-- ebm_right_shift (42_shift.md R102). -/
def execRightShift (w : Width) (_sg : Signedness) (s : State) : Result :=
  answer (fun r => valueResponse (rightShift (r.valueA w) r.amount)) s

/-- ebm_rotate_left (42_shift.md R103). -/
def execRotateLeft (w : Width) (_sg : Signedness) (s : State) : Result :=
  answer (fun r => valueResponse (rotateLeft (r.valueA w) r.amount)) s

/-- ebm_rotate_right (42_shift.md R104). -/
def execRotateRight (w : Width) (_sg : Signedness) (s : State) : Result :=
  answer (fun r => valueResponse (rotateRight (r.valueA w) r.amount)) s

end Sys2Proof.Machine
end

