-- ==== Sys2Proof/Machine/Dispatch.lean ====
section
/-! DEFINITION. One arm per constructor of Instr (10_state.md R28: the rule of op in 40_byteview.md to 44_arith.md). -/

namespace Sys2Proof.Machine

def exec (i : Instr) (s : State) : Host.Outcome State Fault Refusal :=
  match i with
  | .ebmToBytes w sg => Sys2Proof.Machine.execToBytes w sg s
  | .ebmFromBytes w sg => Sys2Proof.Machine.execFromBytes w sg s
  | .ebmAnd w sg => Sys2Proof.Machine.execAnd w sg s
  | .ebmOr w sg => Sys2Proof.Machine.execOr w sg s
  | .ebmXor w sg => Sys2Proof.Machine.execXor w sg s
  | .ebmNot w sg => Sys2Proof.Machine.execNot w sg s
  | .ebmLeftShift w sg => Sys2Proof.Machine.execLeftShift w sg s
  | .ebmRightShift w sg => Sys2Proof.Machine.execRightShift w sg s
  | .ebmRotateLeft w sg => Sys2Proof.Machine.execRotateLeft w sg s
  | .ebmRotateRight w sg => Sys2Proof.Machine.execRotateRight w sg s
  | .ebmPopulationCount w sg => Sys2Proof.Machine.execPopulationCount w sg s
  | .ebmLeadingZeros w sg => Sys2Proof.Machine.execLeadingZeros w sg s
  | .ebmTrailingZeros w sg => Sys2Proof.Machine.execTrailingZeros w sg s
  | .ebmLeadingOnes w sg => Sys2Proof.Machine.execLeadingOnes w sg s
  | .ebmTrailingOnes w sg => Sys2Proof.Machine.execTrailingOnes w sg s
  | .ebmAdd w sg => Sys2Proof.Machine.execAdd w sg s
  | .ebmSubtract w sg => Sys2Proof.Machine.execSubtract w sg s
  | .ebmMultiply w sg => Sys2Proof.Machine.execMultiply w sg s
  | .ebmDivide w sg => Sys2Proof.Machine.execDivide w sg s
  | .ebmModulo w sg => Sys2Proof.Machine.execModulo w sg s

end Sys2Proof.Machine
end

