-- ==== Sys2Proof/Machine/Step.lean ====
section
/-! DEFINITION. One step is one whole transaction (20_memory.md R46: "Each transaction is atomic"): the command word of the first
transaction in flight is decoded, a reserved word is refused before any operand is read (60_exceptions.md R178), and an
admitted one is executed. Every step answers a next state: neither an error nor a refusal of one caller's request touches
another's (20_memory.md R49). -/

namespace Sys2Proof.Machine

/-- One step of the block. -/
def step (s : State) : Host.Outcome State Fault Refusal :=
  match s.nextCommand with
  | none => .next s.idle
  | some cmd =>
    match decode cmd with
    | .error why => refuse why s
    | .ok i => exec i s

/-- The host's loading of one word: it becomes the command word of the next transaction to be answered (log entry 6). -/
def State.withFetchWord (s : State) (nbits w : Nat) : State := s.presentCommand (BitVec.ofNat 16 (w % 2 ^ nbits))

/-- `Exec` of 10_state.md R28, as this machine realises it: the response to one request alone in flight, or none for
`Refused`. -/
def transact (r : Request) : Option Response :=
  match step { State.reset with requests := [{ caller := 0, patience := 0, request := r }] } with
  | .next s => s.response.map (·.response)
  | .fault _ => none
  | .refused _ => none

end Sys2Proof.Machine
end

