-- ==== Sys2Proof/Machine/Assembly.lean ====
section
/-! DEFINITION. The assembler form of a command, `ebm_<operation>.<suffix> <operands>` (30_encoding.md R73). A caller's variables
are outside the block, so an operand is a literal. An operand that does not fit is no operand: an amount of 2^32 or more has
no command (R70), and a value or byte that does not fit its width cannot be written (20_memory.md R44). -/

namespace Sys2Proof.Machine

/-- The operation a mnemonic stem names (30_encoding.md R61, R73). -/
def opOfMnemonic (stem : String) : Option (Width → Signedness → Instr) :=
  match stem with
  | "ebm_to_bytes" => some .ebmToBytes
  | "ebm_from_bytes" => some .ebmFromBytes
  | "ebm_and" => some .ebmAnd
  | "ebm_or" => some .ebmOr
  | "ebm_xor" => some .ebmXor
  | "ebm_not" => some .ebmNot
  | "ebm_left_shift" => some .ebmLeftShift
  | "ebm_right_shift" => some .ebmRightShift
  | "ebm_rotate_left" => some .ebmRotateLeft
  | "ebm_rotate_right" => some .ebmRotateRight
  | "ebm_population_count" => some .ebmPopulationCount
  | "ebm_leading_zeros" => some .ebmLeadingZeros
  | "ebm_trailing_zeros" => some .ebmTrailingZeros
  | "ebm_leading_ones" => some .ebmLeadingOnes
  | "ebm_trailing_ones" => some .ebmTrailingOnes
  | "ebm_add" => some .ebmAdd
  | "ebm_subtract" => some .ebmSubtract
  | "ebm_multiply" => some .ebmMultiply
  | "ebm_divide" => some .ebmDivide
  | "ebm_modulo" => some .ebmModulo
  | _ => none

/-- The type a suffix names (30_encoding.md R62). -/
def typeOfSuffix (suffix : String) : Option (Width × Signedness) :=
  match suffix with
  | "u8" => some (.w8, .unsigned)
  | "i8" => some (.w8, .signed)
  | "u16" => some (.w16, .unsigned)
  | "i16" => some (.w16, .signed)
  | "u32" => some (.w32, .unsigned)
  | "i32" => some (.w32, .signed)
  | "u64" => some (.w64, .unsigned)
  | "i64" => some (.w64, .signed)
  | "u128" => some (.w128, .unsigned)
  | "i128" => some (.w128, .signed)
  | "usize" => some (.wn, .unsigned)
  | "isize" => some (.wn, .signed)
  | _ => none

/-- The value of a digit in a base of at most 16. -/
def digitValue (base : Nat) (c : Char) : Option Nat :=
  let v := if '0' ≤ c ∧ c ≤ '9' then c.toNat - 48
    else if 'a' ≤ c ∧ c ≤ 'f' then c.toNat - 87
    else if 'A' ≤ c ∧ c ≤ 'F' then c.toNat - 55
    else 16
  if v < base then some v else none

/-- The digits of a literal after the first; `_` separates digits (30_encoding.md R73). -/
def moreDigits (base : Nat) (acc : Nat) : List Char → Option Nat
  | [] => some acc
  | c :: cs =>
    if c = '_' then moreDigits base acc cs
    else match digitValue base c with
      | some v => moreDigits base (acc * base + v) cs
      | none => none

/-- The digits of a literal: at least one, and first of all. -/
def digits (base : Nat) : List Char → Option Nat
  | [] => none
  | c :: cs =>
    match digitValue base c with
    | some v => moreDigits base v cs
    | none => none

/-- "Literals may be decimal, `0x` hexadecimal or `0b` binary" (30_encoding.md R73). -/
def literal : List Char → Option Nat
  | '0' :: 'x' :: cs => digits 16 cs
  | '0' :: 'b' :: cs => digits 2 cs
  | cs => digits 10 cs

/-- The parts of a text between its separators `sep`. -/
def splitAtChar (sep : Char) : List Char → List (List Char)
  | [] => [[]]
  | c :: cs =>
    if c = sep then [] :: splitAtChar sep cs
    else match splitAtChar sep cs with
      | [] => [[c]]
      | p :: ps => (c :: p) :: ps

/-- The literals of a list separated by commas; spaces do not count. -/
def literals (cs : List Char) : Option (List Nat) :=
  (splitAtChar ',' (cs.filter (· ≠ ' '))).mapM literal

/-- An operand list with its brackets taken off: only from_bytes has them (30_encoding.md R73). -/
def bracketed (cs : List Char) : Option (List Char) :=
  match cs.filter (· ≠ ' ') with
  | '[' :: rest =>
    match rest.reverse with
    | ']' :: inner => some inner.reverse
    | _ => none
  | _ => none

/-- The request of an instruction and its operands, in request order (30_encoding.md R73), where they fit. -/
def requestOf (i : Instr) (ops : List Nat) : Option Request :=
  match operandForm i, ops with
  | .unary, [a] =>
    if a < 2 ^ i.width.bits then some { cmd := encode i, a := BitVec.ofNat 128 a, b := 0#128, amt := 0#32 } else none
  | .binary, [a, b] =>
    if a < 2 ^ i.width.bits ∧ b < 2 ^ i.width.bits then
      some { cmd := encode i, a := BitVec.ofNat 128 a, b := BitVec.ofNat 128 b, amt := 0#32 }
    else none
  | .amount, [a, k] =>
    if a < 2 ^ i.width.bits ∧ k < 2 ^ 32 then
      some { cmd := encode i, a := BitVec.ofNat 128 a, b := 0#128, amt := BitVec.ofNat 32 k }
    else none
  | .byteList, bs =>
    if bs.length = i.width.bytes ∧ bs.all (· < 256) then
      some { cmd := encode i, a := concatBytes 128 (bs.map (BitVec.ofNat 8)), b := 0#128, amt := 0#32 }
    else none
  | _, _ => none

/-- The instruction that `ebm_<operation>.<suffix>` names (30_encoding.md R73). -/
def instrOfName (name : List Char) : Option Instr :=
  match splitAtChar '.' name with
  | [stem, suffix] =>
    match opOfMnemonic (String.ofList stem), typeOfSuffix (String.ofList suffix) with
    | some op, some (w, sg) => some (op w sg)
    | _, _ => none
  | _ => none

/-- The request that one assembler line stands for; none where there is no such command. -/
def assemble (line : String) : Option Request :=
  let name := line.toList.takeWhile (· ≠ ' ')
  let rest := line.toList.dropWhile (· ≠ ' ')
  match instrOfName name with
  | none => none
  | some i =>
    match operandForm i with
    | .byteList => (bracketed rest).bind fun inner => (literals inner).bind (requestOf i)
    | _ => (literals rest).bind (requestOf i)

end Sys2Proof.Machine
end

