-- ==== Sys2Proof/Machine/Reference.lean ====
section
/-! DEFINITION. The byte-level reference algorithms that the spec gives beside the result rules: 41_logic.md R90 to R93,
42_shift.md R105 and R106, 43_count.md R125, 44_arith.md R146 to R149. No meaning calls them: the meanings are the result
rules, and that each algorithm gives the same result is a statement. Each loop is a recursion on the bytes it visits. -/

namespace Sys2Proof.Machine

/-- The loop of and, or and xor: one operator on each pair of bytes (41_logic.md R90 to R92). -/
def bytewise {n : Nat} (f : Byte → Byte → Byte) (a b : BitVec (8 * n)) : BitVec (8 * n) :=
  fromBytes (Vector.zipWith f (toBytes a) (toBytes b))

/-- The loop of not: every byte, the most significant one included (41_logic.md R93). -/
def bytewiseNot {n : Nat} (a : BitVec (8 * n)) : BitVec (8 * n) := fromBytes ((toBytes a).map fun x => ~~~ x)

/-- `I[j]`, which 42_shift.md R105 reads as 0 for j outside 0..n-1. -/
def byteOrZero {n : Nat} (bs : Bytes n) (j : Int) : Byte := if 0 ≤ j then bs.toList.getD j.toNat 0#8 else 0#8

/-- left_shift by a whole-byte and a sub-byte component (42_shift.md R105). -/
def leftShiftBytes {n : Nat} (a : BitVec (8 * n)) (k : Nat) : BitVec (8 * n) :=
  let bs := toBytes a
  let q : Int := k / 8
  let s := k % 8
  if k ≥ 8 * n then 0#(8 * n)
  else fromBytes (Vector.ofFn fun i : Fin n =>
    BitVec.ofNat 8 ((byteOrZero bs (i.val - q)).toNat <<< s
      ||| (if s = 0 then 0 else (byteOrZero bs (i.val - q - 1)).toNat >>> (8 - s))))

/-- right_shift by a whole-byte and a sub-byte component (42_shift.md R105). -/
def rightShiftBytes {n : Nat} (a : BitVec (8 * n)) (k : Nat) : BitVec (8 * n) :=
  let bs := toBytes a
  let q : Int := k / 8
  let s := k % 8
  if k ≥ 8 * n then 0#(8 * n)
  else fromBytes (Vector.ofFn fun i : Fin n =>
    BitVec.ofNat 8 ((byteOrZero bs (i.val + q)).toNat >>> s
      ||| (if s = 0 then 0 else (byteOrZero bs (i.val + q + 1)).toNat <<< (8 - s))))

/-- rotate_left as `left_shift(a, j) | right_shift(a, W - j)` (42_shift.md R106). -/
def rotateLeftByShifts {W : Nat} (a : BitVec W) (k : Nat) : BitVec W :=
  leftShift a (k % W) ||| rightShift a (W - k % W)

/-- rotate_right as `right_shift(a, j) | left_shift(a, W - j)` (42_shift.md R106). -/
def rotateRightByShifts {W : Nat} (a : BitVec W) (k : Nat) : BitVec W :=
  rightShift a (k % W) ||| leftShift a (W - k % W)

/-- Scan bytes: 8 for each leading byte equal to `uniform`, then `last x` for the first other byte x (43_count.md R125). -/
def scanBytes (uniform : Byte) (last : Byte → Nat) : List Byte → Nat
  | [] => 0
  | x :: xs => if x = uniform then 8 + scanBytes uniform last xs else last x

/-- leading_zeros: visit `I[n-1], …, I[0]` (43_count.md R125). -/
def leadingZerosBytes {n : Nat} (a : BitVec (8 * n)) : Nat :=
  scanBytes 0x00#8 leadingZeros (toBytes a).toList.reverse

/-- trailing_zeros: visit `I[0], …, I[n-1]` (43_count.md R125). -/
def trailingZerosBytes {n : Nat} (a : BitVec (8 * n)) : Nat :=
  scanBytes 0x00#8 trailingZeros (toBytes a).toList

/-- leading_ones, "with 0xFF in place of 0x00" (43_count.md R125). -/
def leadingOnesBytes {n : Nat} (a : BitVec (8 * n)) : Nat :=
  scanBytes 0xFF#8 leadingOnes (toBytes a).toList.reverse

/-- trailing_ones, "with 0xFF in place of 0x00" (43_count.md R125). -/
def trailingOnesBytes {n : Nat} (a : BitVec (8 * n)) : Nat :=
  scanBytes 0xFF#8 trailingOnes (toBytes a).toList

/-- The ripple carry from byte 0 upward; the last carry is discarded (44_arith.md R146). -/
def rippleAdd (c : Nat) : List Byte → List Byte → List Byte
  | x :: xs, y :: ys =>
    let s := x.toNat + y.toNat + c
    BitVec.ofNat 8 s :: rippleAdd (s / 256) xs ys
  | _, _ => []

/-- The reference adder (44_arith.md R146). -/
def addBytes {n : Nat} (a b : BitVec (8 * n)) : BitVec (8 * n) :=
  concatBytes (8 * n) (rippleAdd 0 (toBytes a).toList (toBytes b).toList)

/-- The ripple borrow from byte 0 upward; the last borrow is discarded (44_arith.md R147). -/
def rippleSubtract (brw : Int) : List Byte → List Byte → List Byte
  | x :: xs, y :: ys =>
    let d : Int := (x.toNat : Int) - (y.toNat : Int) - brw
    if d < 0 then BitVec.ofInt 8 (d + 256) :: rippleSubtract 1 xs ys
    else BitVec.ofInt 8 d :: rippleSubtract 0 xs ys
  | _, _ => []

/-- The reference subtractor (44_arith.md R147). -/
def subtractBytes {n : Nat} (a b : BitVec (8 * n)) : BitVec (8 * n) :=
  concatBytes (8 * n) (rippleSubtract 0 (toBytes a).toList (toBytes b).toList)

/-- The inner loop over j of 44_arith.md R148 for one byte x = A[i]: `ps` is P[i..n-1], and the loop ends where P ends. -/
def multiplyRow (x : Byte) (c : Nat) : List Byte → List Byte → List Byte
  | p :: ps, y :: ys =>
    let t := p.toNat + x.toNat * y.toNat + c
    BitVec.ofNat 8 t :: multiplyRow x (t / 256) ps ys
  | _, _ => []

/-- The outer loop over i of 44_arith.md R148: P[i] is final after row i, and the later rows work on P[i+1..n-1]. -/
def multiplyRows (B : List Byte) : List Byte → List Byte → List Byte
  | x :: xs, ps =>
    match multiplyRow x 0 ps B with
    | [] => []
    | p :: rest => p :: multiplyRows B xs rest
  | [], ps => ps

/-- The reference multiplier (44_arith.md R148). -/
def multiplyBytes {n : Nat} (a b : BitVec (8 * n)) : BitVec (8 * n) :=
  concatBytes (8 * n) (multiplyRows (toBytes b).toList (toBytes a).toList (List.replicate n 0#8))

/-- The loop `for i in W-1 downto 0` of 44_arith.md R149 on the quotient q and the partial remainder r. -/
def restoringLoop {W : Nat} (a b : BitVec W) : Nat → Nat × Nat → Nat × Nat
  | 0, qr => qr
  | i + 1, (q, r) =>
    let r' := 2 * r + (a.getLsbD i).toNat
    if r' ≥ b.toNat then restoringLoop a b i (q + 2 ^ i, r' - b.toNat) else restoringLoop a b i (q, r')

/-- The reference divider (44_arith.md R149). -/
def restoringDivMod {W : Nat} (a b : BitVec W) : Except ErrorKind (BitVec W × BitVec W) :=
  if b.toNat = 0 then .error .divisionByZero
  else
    let qr := restoringLoop a b W (0, 0)
    .ok (BitVec.ofNat W qr.1, BitVec.ofNat W qr.2)

end Sys2Proof.Machine
end

