-- ==== Sys2Proof/Safety.lean ====
section
/-! DEFINITION. What counts as a good state and a safe run, in the terms the statements use. -/

namespace Sys2Proof.Machine

/-- What 10_state.md R27 says of the fields of a response: CNT is a count of at most 128 bits, and RES and CNT are never
both in use. -/
def Response.legal : Response → Bool
  | .ok res cnt => decide (cnt.toNat ≤ 128) && (decide (res = 0#128) || decide (cnt = 0#8))
  | .err _ => true

/-- The invariant of the block: a caller has at most one transaction outstanding (70_reset_and_hazards.md R194), and the
response on the ports, if there is one, is legal (10_state.md R27). -/
structure State.Inv (s : State) : Prop where
  oneOutstandingPerCaller : s.callers.Nodup
  responseLegal : ∀ d, s.response = some d → d.response.legal = true

/-- Every caller keeps its duty of 70_reset_and_hazards.md R195 (a): each command word in flight is admitted. -/
def State.Conforming (s : State) : Prop := ∀ t ∈ s.requests, Command.wellFormed t.request.cmd = true

/-- What can happen to the block: a step of its own, and what its callers and reset do to it from outside. -/
inductive Event where
  | step
  | present (place : Nat) (t : Transaction)
  | giveUp (caller : Nat)
  | assertReset
  deriving DecidableEq, Repr

/-- What one event answers. -/
def happen (s : State) : Event → Result
  | .step => step s
  | .present place t => .next (s.issue place t)
  | .giveUp caller => .next (s.giveUp caller)
  | .assertReset => .next s.assertReset

/-- A sequence of events, stopping at the first that does not answer a next state. -/
def runEvents : List Event → State → Result
  | [], s => .next s
  | e :: es, s =>
    match happen s e with
    | .next s' => runEvents es s'
    | .fault f => .fault f
    | .refused r => .refused r

/-- `k` steps, stopping at the first that does not answer a next state. -/
def run : Nat → State → Result
  | 0, s => .next s
  | k + 1, s =>
    match step s with
    | .next s' => run k s'
    | .fault f => .fault f
    | .refused r => .refused r

end Sys2Proof.Machine
end

