-- ==== Sys2Proof/Certificates/Slice0/Obligations.lean ====
section
/-! DEFINITION. The statements for the provers. Each per-operation statement gives the operation's assembler
form and encoding (a command word is written out as RSV, S, WID, OP) and, for every width, tag and state with a
transaction in flight, that exec answers a next state, and all of that state: the other transactions in flight untouched,
and the refused ones, the response to the first one, and the model's own counter of moments advanced (log entry 4). -/

open Sys2Proof Sys2Proof.Machine

/-! ### Encoding -/

/-- 30_encoding.md R62: the six widths, NATIVE_W a multiple of 8 in 8..128 (00_scope.md R8), and no others. -/
def Obligations.WidthCodesSelectTheirWidths : Prop :=
  (widthOfCode 0b000#3).map Width.bits = some 8 ∧ (widthOfCode 0b001#3).map Width.bits = some 16 ∧
  (widthOfCode 0b010#3).map Width.bits = some 32 ∧ (widthOfCode 0b011#3).map Width.bits = some 64 ∧
  (widthOfCode 0b100#3).map Width.bits = some 128 ∧ widthOfCode 0b101#3 = some .wn ∧
  widthOfCode 0b110#3 = none ∧ widthOfCode 0b111#3 = none ∧
  8 ∣ Width.bits .wn ∧ 8 ≤ Width.bits .wn ∧ Width.bits .wn ≤ 128 ∧ ∀ w : Width, w.bits = 8 * w.bytes

/-- Words of 30_encoding.md section 5 and of R73, one or more of each unit, and reserved words of 95_test_vectors.md 2.7. -/
def Obligations.WordsOfTheSpecDecodeAsItSays : Prop :=
  decode 0x0000#16 = .ok (.ebmToBytes .w8 .unsigned) ∧ decode 0x0061#16 = .ok (.ebmFromBytes .w64 .unsigned) ∧
  decode 0x0144#16 = .ok (.ebmAnd .w32 .signed) ∧ decode 0x014A#16 = .ok (.ebmRotateLeft .w32 .signed) ∧
  decode 0x0113#16 = .ok (.ebmLeadingOnes .w8 .signed) ∧ decode 0x0094#16 = .ok (.ebmTrailingOnes .w128 .unsigned) ∧
  decode 0x0018#16 = .ok (.ebmAdd .w8 .unsigned) ∧ decode 0x00BC#16 = .ok (.ebmModulo .wn .unsigned) ∧
  decode 0x0002#16 = .error .opUnassigned ∧ decode 0x001F#16 = .error .opUnassigned ∧
  decode 0x00C4#16 = .error .widReserved ∧ decode 0x00E4#16 = .error .widReserved ∧
  decode 0x0204#16 = .error .rsvNonzero ∧ decode 0x8018#16 = .error .rsvNonzero

/-- Decode and encode agree on every instruction and every word: a word decodes to an instruction exactly if it is the word
that encodes it. No bit of the encoding is dropped and no second word stands for an instruction (30_encoding.md sections 1
and 3). -/
def Obligations.DecodeIsTheInverseOfEncode : Prop :=
  ∀ (cmd : Command) (i : Instr), decode cmd = .ok i ↔ cmd = encode i

/-- 30_encoding.md R65, step by step: a request is refused exactly if its word is reserved, whatever its operands, and then it
has no response: `Exec` gives none, and the step delivers none. A request that is not refused has its response. Either way
the step answers a next state that keeps the transactions of the other callers as they were. The entry in `refused` records
the refusal; how long it stays there is log entry 8, and not said here. -/
def Obligations.ExactlyReservedWordsAreRefused : Prop :=
  ∀ (s : State) (t : Transaction) (rest : List Transaction), s.requests = t :: rest →
    if t.request.cmd.toNat / 512 ≠ 0 ∨
        t.request.cmd.toNat % 32 ∈ [0x02, 0x03, 0x0C, 0x0D, 0x0E, 0x0F, 0x15, 0x16, 0x17, 0x1D, 0x1E, 0x1F] ∨
        t.request.cmd.toNat / 32 % 8 ∈ [6, 7] then
      transact t.request = none ∧
      ∃ why, decode t.request.cmd = .error why ∧ step s = .next
        { requests := rest
          response := none
          refused := s.refused ++ [{ caller := t.caller, why := why }]
          draws := s.draws + 1 }
    else
      ∃ r, transact t.request = some r ∧ step s = .next
        { requests := rest
          response := some { caller := t.caller, response := r }
          refused := s.refused
          draws := s.draws + 1 }

/-- 30_encoding.md section 3: 240 admitted words, so the other 65,296 of the 2^16 are refused, the spec's own inference. -/
def Obligations.TwoHundredFortyWordsAreAdmitted : Prop :=
  ∃ l : List Command, l.Nodup ∧ l.length = 240 ∧ ∀ cmd : Command, cmd ∈ l ↔ ∃ i, decode cmd = .ok i

/-- The decoder (30_encoding.md section 3), which reads the tables, admits exactly the words that WellFormed.lean, which lists
what is reserved (section 2), admits; and the operation, width and tag it gives have the codes of the fields in bits 4:0,
7:5 and 8 (section 1). -/
def Obligations.DecoderAdmitsExactlyWellFormedWords : Prop :=
  ∀ cmd : Command, (cmd.wellFormed = true ↔ ∃ i, decode cmd = .ok i) ∧
    ∀ i, decode cmd = .ok i →
      i.opcode.toNat = cmd.toNat % 32 ∧ i.width.code.toNat = cmd.toNat / 32 % 8 ∧
      i.signedness.code.toNat = cmd.toNat / 256

/-! ### The step -/

/-- A step runs the decoded command: with a transaction in flight whose word decodes to i, step is exec of i, with nothing
added (10_state.md R28; decoding is 30_encoding.md section 3). -/
def Obligations.StepRunsTheDecodedCommand : Prop :=
  ∀ (s : State) (t : Transaction) (rest : List Transaction) (i : Instr),
    s.requests = t :: rest → decode t.request.cmd = .ok i → step s = exec i s

/-- The model's choice, log entry 5: with nothing in flight a step changes nothing but that no response stands on the
ports. The same is what exec does then. -/
def Obligations.NothingInFlightNothingAnswered : Prop :=
  ∀ s : State, s.requests = [] →
    step s = .next { requests := [], response := none, refused := s.refused, draws := s.draws + 1 } ∧
    ∀ i, exec i s = .next { requests := [], response := none, refused := s.refused, draws := s.draws + 1 }

/-! ### The operations -/

/-- 40_byteview.md R80: lane i of RES is bits 8i+7..8i of a, little-endian, for i < n, and the lanes above are zero. -/
def Obligations.ToBytesPutsByteIInLaneI : Prop :=
  opOfMnemonic "ebm_to_bytes" = some .ebmToBytes ∧
  (∀ (w : Width) (sg : Signedness),
    decode (0#7 ++ sg.code ++ w.code ++ 0x00#5) = .ok (.ebmToBytes w sg) ∧
    operandForm (.ebmToBytes w sg) = .unary) ∧
  ∀ (w : Width) (sg : Signedness) (s : State) (t : Transaction) (rest : List Transaction), s.requests = t :: rest →
    ∃ res : Bus, exec (.ebmToBytes w sg) s = .next
      { requests := rest
        response := some { caller := t.caller, response := .ok res 0#8 }
        refused := s.refused
        draws := s.draws + 1 } ∧
      ∀ i, i < 16 → res.extractLsb' (8 * i) 8 = if i < w.bytes then t.request.a.extractLsb' (8 * i) 8 else 0#8

/-- 40_byteview.md R81: bits 8i+7..8i of the value are lane i of A, for i < n; lanes n..15 of A are ignored. -/
def Obligations.FromBytesTakesByteIFromLaneI : Prop :=
  opOfMnemonic "ebm_from_bytes" = some .ebmFromBytes ∧
  (∀ (w : Width) (sg : Signedness),
    decode (0#7 ++ sg.code ++ w.code ++ 0x01#5) = .ok (.ebmFromBytes w sg) ∧
    operandForm (.ebmFromBytes w sg) = .byteList) ∧
  ∀ (w : Width) (sg : Signedness) (s : State) (t : Transaction) (rest : List Transaction), s.requests = t :: rest →
    ∃ res : Bus, exec (.ebmFromBytes w sg) s = .next
      { requests := rest
        response := some { caller := t.caller, response := .ok res 0#8 }
        refused := s.refused
        draws := s.draws + 1 } ∧
      ∀ i, i < 16 → res.extractLsb' (8 * i) 8 = if i < w.bytes then t.request.a.extractLsb' (8 * i) 8 else 0#8

/-- 41_logic.md R90: each bit of the result below W is the AND of the operands' bits at the same position. -/
def Obligations.AndActsOnEachBit : Prop :=
  opOfMnemonic "ebm_and" = some .ebmAnd ∧
  (∀ (w : Width) (sg : Signedness),
    decode (0#7 ++ sg.code ++ w.code ++ 0x04#5) = .ok (.ebmAnd w sg) ∧
    operandForm (.ebmAnd w sg) = .binary) ∧
  ∀ (w : Width) (sg : Signedness) (s : State) (t : Transaction) (rest : List Transaction), s.requests = t :: rest →
    ∃ res : Bus, exec (.ebmAnd w sg) s = .next
      { requests := rest
        response := some { caller := t.caller, response := .ok res 0#8 }
        refused := s.refused
        draws := s.draws + 1 } ∧
      ∀ i, i < 128 → res.getLsbD i =
        (decide (i < w.bits) && (t.request.a.getLsbD i && t.request.b.getLsbD i))

/-- 41_logic.md R91: each bit of the result below W is the OR of the operands' bits at the same position. -/
def Obligations.OrActsOnEachBit : Prop :=
  opOfMnemonic "ebm_or" = some .ebmOr ∧
  (∀ (w : Width) (sg : Signedness),
    decode (0#7 ++ sg.code ++ w.code ++ 0x05#5) = .ok (.ebmOr w sg) ∧
    operandForm (.ebmOr w sg) = .binary) ∧
  ∀ (w : Width) (sg : Signedness) (s : State) (t : Transaction) (rest : List Transaction), s.requests = t :: rest →
    ∃ res : Bus, exec (.ebmOr w sg) s = .next
      { requests := rest
        response := some { caller := t.caller, response := .ok res 0#8 }
        refused := s.refused
        draws := s.draws + 1 } ∧
      ∀ i, i < 128 → res.getLsbD i =
        (decide (i < w.bits) && (t.request.a.getLsbD i || t.request.b.getLsbD i))

/-- 41_logic.md R92: each bit of the result below W is the XOR of the operands' bits at the same position. -/
def Obligations.XorActsOnEachBit : Prop :=
  opOfMnemonic "ebm_xor" = some .ebmXor ∧
  (∀ (w : Width) (sg : Signedness),
    decode (0#7 ++ sg.code ++ w.code ++ 0x06#5) = .ok (.ebmXor w sg) ∧
    operandForm (.ebmXor w sg) = .binary) ∧
  ∀ (w : Width) (sg : Signedness) (s : State) (t : Transaction) (rest : List Transaction), s.requests = t :: rest →
    ∃ res : Bus, exec (.ebmXor w sg) s = .next
      { requests := rest
        response := some { caller := t.caller, response := .ok res 0#8 }
        refused := s.refused
        draws := s.draws + 1 } ∧
      ∀ i, i < 128 → res.getLsbD i =
        (decide (i < w.bits) && (t.request.a.getLsbD i ^^ t.request.b.getLsbD i))

/-- 41_logic.md R93: one operand, and no mask beyond W. -/
def Obligations.NotActsOnEachBit : Prop :=
  opOfMnemonic "ebm_not" = some .ebmNot ∧
  (∀ (w : Width) (sg : Signedness),
    decode (0#7 ++ sg.code ++ w.code ++ 0x07#5) = .ok (.ebmNot w sg) ∧
    operandForm (.ebmNot w sg) = .unary) ∧
  ∀ (w : Width) (sg : Signedness) (s : State) (t : Transaction) (rest : List Transaction), s.requests = t :: rest →
    ∃ res : Bus, exec (.ebmNot w sg) s = .next
      { requests := rest
        response := some { caller := t.caller, response := .ok res 0#8 }
        refused := s.refused
        draws := s.draws + 1 } ∧
      ∀ i, i < 128 → res.getLsbD i =
        (decide (i < w.bits) && !t.request.a.getLsbD i)

/-- 42_shift.md R101: bit i of the result is bit i-k of a, zero below k and, with k of W or more, everywhere. -/
def Obligations.LeftShiftMovesBitsUp : Prop :=
  opOfMnemonic "ebm_left_shift" = some .ebmLeftShift ∧
  (∀ (w : Width) (sg : Signedness),
    decode (0#7 ++ sg.code ++ w.code ++ 0x08#5) = .ok (.ebmLeftShift w sg) ∧
    operandForm (.ebmLeftShift w sg) = .amount) ∧
  ∀ (w : Width) (sg : Signedness) (s : State) (t : Transaction) (rest : List Transaction), s.requests = t :: rest →
    ∃ res : Bus, exec (.ebmLeftShift w sg) s = .next
      { requests := rest
        response := some { caller := t.caller, response := .ok res 0#8 }
        refused := s.refused
        draws := s.draws + 1 } ∧
      ∀ i, i < 128 → res.getLsbD i =
        (decide (i < w.bits) && (decide (t.request.amt.toNat ≤ i) && t.request.a.getLsbD (i - t.request.amt.toNat)))

/-- 42_shift.md R102: bit i of the result is bit i+k of a, logical at both tags; with k of W or more all bits are zero. -/
def Obligations.RightShiftMovesBitsDown : Prop :=
  opOfMnemonic "ebm_right_shift" = some .ebmRightShift ∧
  (∀ (w : Width) (sg : Signedness),
    decode (0#7 ++ sg.code ++ w.code ++ 0x09#5) = .ok (.ebmRightShift w sg) ∧
    operandForm (.ebmRightShift w sg) = .amount) ∧
  ∀ (w : Width) (sg : Signedness) (s : State) (t : Transaction) (rest : List Transaction), s.requests = t :: rest →
    ∃ res : Bus, exec (.ebmRightShift w sg) s = .next
      { requests := rest
        response := some { caller := t.caller, response := .ok res 0#8 }
        refused := s.refused
        draws := s.draws + 1 } ∧
      ∀ i, i < 128 → res.getLsbD i =
        (decide (i < w.bits) && (decide (i + t.request.amt.toNat < w.bits) && t.request.a.getLsbD (i + t.request.amt.toNat)))

/-- 42_shift.md R103: bit i of a comes to bit (i + k) mod W, for every amount; bits from W up are zero. -/
def Obligations.RotateLeftMovesBitsRound : Prop :=
  opOfMnemonic "ebm_rotate_left" = some .ebmRotateLeft ∧
  (∀ (w : Width) (sg : Signedness),
    decode (0#7 ++ sg.code ++ w.code ++ 0x0A#5) = .ok (.ebmRotateLeft w sg) ∧
    operandForm (.ebmRotateLeft w sg) = .amount) ∧
  ∀ (w : Width) (sg : Signedness) (s : State) (t : Transaction) (rest : List Transaction), s.requests = t :: rest →
    ∃ res : Bus, exec (.ebmRotateLeft w sg) s = .next
      { requests := rest
        response := some { caller := t.caller, response := .ok res 0#8 }
        refused := s.refused
        draws := s.draws + 1 } ∧
      (∀ i, i < w.bits → res.getLsbD ((i + t.request.amt.toNat) % w.bits) = t.request.a.getLsbD i) ∧
      ∀ i, w.bits ≤ i → res.getLsbD i = false

/-- 42_shift.md R104: bit (i + k) mod W of a comes to bit i, for every amount; bits from W up are zero. -/
def Obligations.RotateRightMovesBitsRound : Prop :=
  opOfMnemonic "ebm_rotate_right" = some .ebmRotateRight ∧
  (∀ (w : Width) (sg : Signedness),
    decode (0#7 ++ sg.code ++ w.code ++ 0x0B#5) = .ok (.ebmRotateRight w sg) ∧
    operandForm (.ebmRotateRight w sg) = .amount) ∧
  ∀ (w : Width) (sg : Signedness) (s : State) (t : Transaction) (rest : List Transaction), s.requests = t :: rest →
    ∃ res : Bus, exec (.ebmRotateRight w sg) s = .next
      { requests := rest
        response := some { caller := t.caller, response := .ok res 0#8 }
        refused := s.refused
        draws := s.draws + 1 } ∧
      (∀ i, i < w.bits → res.getLsbD i = t.request.a.getLsbD ((i + t.request.amt.toNat) % w.bits)) ∧
      ∀ i, w.bits ≤ i → res.getLsbD i = false

/-- 43_count.md R120: CNT is exactly the number of bits i < W of a that are 1. -/
def Obligations.PopulationCountCountsTheOneBits : Prop :=
  opOfMnemonic "ebm_population_count" = some .ebmPopulationCount ∧
  (∀ (w : Width) (sg : Signedness),
    decode (0#7 ++ sg.code ++ w.code ++ 0x10#5) = .ok (.ebmPopulationCount w sg) ∧
    operandForm (.ebmPopulationCount w sg) = .unary) ∧
  ∀ (w : Width) (sg : Signedness) (s : State) (t : Transaction) (rest : List Transaction), s.requests = t :: rest →
    ∃ cnt : CountWord, exec (.ebmPopulationCount w sg) s = .next
      { requests := rest
        response := some { caller := t.caller, response := .ok 0#128 cnt }
        refused := s.refused
        draws := s.draws + 1 } ∧
      cnt.toNat = (List.range w.bits).countP fun i => t.request.a.getLsbD i

/-- 43_count.md R121: CNT zero bits from bit W-1 down, and then a one bit, or CNT = W. -/
def Obligations.LeadingZerosIsTheRunFromTheTop : Prop :=
  opOfMnemonic "ebm_leading_zeros" = some .ebmLeadingZeros ∧
  (∀ (w : Width) (sg : Signedness),
    decode (0#7 ++ sg.code ++ w.code ++ 0x11#5) = .ok (.ebmLeadingZeros w sg) ∧
    operandForm (.ebmLeadingZeros w sg) = .unary) ∧
  ∀ (w : Width) (sg : Signedness) (s : State) (t : Transaction) (rest : List Transaction), s.requests = t :: rest →
    ∃ cnt : CountWord, exec (.ebmLeadingZeros w sg) s = .next
      { requests := rest
        response := some { caller := t.caller, response := .ok 0#128 cnt }
        refused := s.refused
        draws := s.draws + 1 } ∧
      cnt.toNat ≤ w.bits ∧ (∀ i, i < cnt.toNat → t.request.a.getLsbD (w.bits - 1 - i) = false) ∧
      (cnt.toNat < w.bits → t.request.a.getLsbD (w.bits - 1 - cnt.toNat) = true)

/-- 43_count.md R122: CNT zero bits from bit 0 up, and then a one bit, or CNT = W. -/
def Obligations.TrailingZerosIsTheRunFromTheBottom : Prop :=
  opOfMnemonic "ebm_trailing_zeros" = some .ebmTrailingZeros ∧
  (∀ (w : Width) (sg : Signedness),
    decode (0#7 ++ sg.code ++ w.code ++ 0x12#5) = .ok (.ebmTrailingZeros w sg) ∧
    operandForm (.ebmTrailingZeros w sg) = .unary) ∧
  ∀ (w : Width) (sg : Signedness) (s : State) (t : Transaction) (rest : List Transaction), s.requests = t :: rest →
    ∃ cnt : CountWord, exec (.ebmTrailingZeros w sg) s = .next
      { requests := rest
        response := some { caller := t.caller, response := .ok 0#128 cnt }
        refused := s.refused
        draws := s.draws + 1 } ∧
      cnt.toNat ≤ w.bits ∧ (∀ i, i < cnt.toNat → t.request.a.getLsbD i = false) ∧
      (cnt.toNat < w.bits → t.request.a.getLsbD cnt.toNat = true)

/-- 43_count.md R123: CNT one bits from bit W-1 down, and then a zero bit, or CNT = W. -/
def Obligations.LeadingOnesIsTheRunFromTheTop : Prop :=
  opOfMnemonic "ebm_leading_ones" = some .ebmLeadingOnes ∧
  (∀ (w : Width) (sg : Signedness),
    decode (0#7 ++ sg.code ++ w.code ++ 0x13#5) = .ok (.ebmLeadingOnes w sg) ∧
    operandForm (.ebmLeadingOnes w sg) = .unary) ∧
  ∀ (w : Width) (sg : Signedness) (s : State) (t : Transaction) (rest : List Transaction), s.requests = t :: rest →
    ∃ cnt : CountWord, exec (.ebmLeadingOnes w sg) s = .next
      { requests := rest
        response := some { caller := t.caller, response := .ok 0#128 cnt }
        refused := s.refused
        draws := s.draws + 1 } ∧
      cnt.toNat ≤ w.bits ∧ (∀ i, i < cnt.toNat → t.request.a.getLsbD (w.bits - 1 - i) = true) ∧
      (cnt.toNat < w.bits → t.request.a.getLsbD (w.bits - 1 - cnt.toNat) = false)

/-- 43_count.md R124: CNT one bits from bit 0 up, and then a zero bit, or CNT = W. -/
def Obligations.TrailingOnesIsTheRunFromTheBottom : Prop :=
  opOfMnemonic "ebm_trailing_ones" = some .ebmTrailingOnes ∧
  (∀ (w : Width) (sg : Signedness),
    decode (0#7 ++ sg.code ++ w.code ++ 0x14#5) = .ok (.ebmTrailingOnes w sg) ∧
    operandForm (.ebmTrailingOnes w sg) = .unary) ∧
  ∀ (w : Width) (sg : Signedness) (s : State) (t : Transaction) (rest : List Transaction), s.requests = t :: rest →
    ∃ cnt : CountWord, exec (.ebmTrailingOnes w sg) s = .next
      { requests := rest
        response := some { caller := t.caller, response := .ok 0#128 cnt }
        refused := s.refused
        draws := s.draws + 1 } ∧
      cnt.toNat ≤ w.bits ∧ (∀ i, i < cnt.toNat → t.request.a.getLsbD i = true) ∧
      (cnt.toNat < w.bits → t.request.a.getLsbD cnt.toNat = false)

/-- 44_arith.md R141: the carry out of the most significant byte is discarded. -/
def Obligations.AddIsTheSumModuloTwoToTheW : Prop :=
  opOfMnemonic "ebm_add" = some .ebmAdd ∧
  (∀ (w : Width) (sg : Signedness),
    decode (0#7 ++ sg.code ++ w.code ++ 0x18#5) = .ok (.ebmAdd w sg) ∧
    operandForm (.ebmAdd w sg) = .binary) ∧
  ∀ (w : Width) (sg : Signedness) (s : State) (t : Transaction) (rest : List Transaction), s.requests = t :: rest →
    exec (.ebmAdd w sg) s = .next
      { requests := rest
        response := some { caller := t.caller, response := .ok (BitVec.ofNat 128 ((t.request.a.toNat + t.request.b.toNat) % 2 ^ w.bits)) 0#8 }
        refused := s.refused
        draws := s.draws + 1 }

/-- 44_arith.md R142: a - b, the borrow out of the most significant byte discarded. -/
def Obligations.SubtractIsTheDifferenceModuloTwoToTheW : Prop :=
  opOfMnemonic "ebm_subtract" = some .ebmSubtract ∧
  (∀ (w : Width) (sg : Signedness),
    decode (0#7 ++ sg.code ++ w.code ++ 0x19#5) = .ok (.ebmSubtract w sg) ∧
    operandForm (.ebmSubtract w sg) = .binary) ∧
  ∀ (w : Width) (sg : Signedness) (s : State) (t : Transaction) (rest : List Transaction), s.requests = t :: rest →
    exec (.ebmSubtract w sg) s = .next
      { requests := rest
        response := some { caller := t.caller, response := .ok (BitVec.ofInt 128 (((t.request.a.toNat : Int) - t.request.b.toNat) % 2 ^ w.bits)) 0#8 }
        refused := s.refused
        draws := s.draws + 1 }

/-- 44_arith.md R143: the low W bits of the product. -/
def Obligations.MultiplyIsTheProductModuloTwoToTheW : Prop :=
  opOfMnemonic "ebm_multiply" = some .ebmMultiply ∧
  (∀ (w : Width) (sg : Signedness),
    decode (0#7 ++ sg.code ++ w.code ++ 0x1A#5) = .ok (.ebmMultiply w sg) ∧
    operandForm (.ebmMultiply w sg) = .binary) ∧
  ∀ (w : Width) (sg : Signedness) (s : State) (t : Transaction) (rest : List Transaction), s.requests = t :: rest →
    exec (.ebmMultiply w sg) s = .next
      { requests := rest
        response := some { caller := t.caller, response := .ok (BitVec.ofNat 128 (t.request.a.toNat * t.request.b.toNat % 2 ^ w.bits)) 0#8 }
        refused := s.refused
        draws := s.draws + 1 }

/-- 44_arith.md R144: the floor quotient of the bit patterns at both tags; DivisionByZero exactly for b = 0. -/
def Obligations.DivideIsTheUnsignedQuotient : Prop :=
  opOfMnemonic "ebm_divide" = some .ebmDivide ∧
  (∀ (w : Width) (sg : Signedness),
    decode (0#7 ++ sg.code ++ w.code ++ 0x1B#5) = .ok (.ebmDivide w sg) ∧
    operandForm (.ebmDivide w sg) = .binary) ∧
  ∀ (w : Width) (sg : Signedness) (s : State) (t : Transaction) (rest : List Transaction), s.requests = t :: rest →
    (t.request.b.toNat % 2 ^ w.bits = 0 → exec (.ebmDivide w sg) s = .next
      { requests := rest
        response := some { caller := t.caller, response := .err .divisionByZero }
        refused := s.refused
        draws := s.draws + 1 }) ∧
    (t.request.b.toNat % 2 ^ w.bits ≠ 0 → exec (.ebmDivide w sg) s = .next
      { requests := rest
        response := some { caller := t.caller, response := .ok (BitVec.ofNat 128 (t.request.a.toNat % 2 ^ w.bits / (t.request.b.toNat % 2 ^ w.bits))) 0#8 }
        refused := s.refused
        draws := s.draws + 1 })

/-- 44_arith.md R145: the remainder of the bit patterns at both tags; DivisionByZero exactly for b = 0. -/
def Obligations.ModuloIsTheUnsignedRemainder : Prop :=
  opOfMnemonic "ebm_modulo" = some .ebmModulo ∧
  (∀ (w : Width) (sg : Signedness),
    decode (0#7 ++ sg.code ++ w.code ++ 0x1C#5) = .ok (.ebmModulo w sg) ∧
    operandForm (.ebmModulo w sg) = .binary) ∧
  ∀ (w : Width) (sg : Signedness) (s : State) (t : Transaction) (rest : List Transaction), s.requests = t :: rest →
    (t.request.b.toNat % 2 ^ w.bits = 0 → exec (.ebmModulo w sg) s = .next
      { requests := rest
        response := some { caller := t.caller, response := .err .divisionByZero }
        refused := s.refused
        draws := s.draws + 1 }) ∧
    (t.request.b.toNat % 2 ^ w.bits ≠ 0 → exec (.ebmModulo w sg) s = .next
      { requests := rest
        response := some { caller := t.caller, response := .ok (BitVec.ofNat 128 (t.request.a.toNat % 2 ^ w.bits % (t.request.b.toNat % 2 ^ w.bits))) 0#8 }
        refused := s.refused
        draws := s.draws + 1 })

/-! ### The units' laws and reference algorithms -/

/-- 40_byteview.md: "`to_bytes` and `from_bytes` are mutual inverses at every width W"; the second direction is marked there
as the spec's own inference. -/
def Obligations.ByteViewConversionsAreMutualInverses : Prop :=
  ∀ n : Nat, (∀ v : BitVec (8 * n), fromBytes (toBytes v) = v) ∧ ∀ bs : Bytes n, toBytes (fromBytes bs) = bs

/-- 30_encoding.md section 3: "The 128-bit pattern RES therefore equals `zext_128(a)`", the spec's own inference for to_bytes;
the same holds of from_bytes. -/
def Obligations.ByteViewCommandsLeaveTheBusPattern : Prop :=
  ∀ (w : Width) (sg : Signedness) (s : State) (t : Transaction) (rest : List Transaction), s.requests = t :: rest →
    exec (.ebmToBytes w sg) s = .next
      { requests := rest
        response := some { caller := t.caller, response := .ok ((t.request.a.setWidth w.bits).setWidth 128) 0#8 }
        refused := s.refused
        draws := s.draws + 1 } ∧
    exec (.ebmFromBytes w sg) s = .next
      { requests := rest
        response := some { caller := t.caller, response := .ok ((t.request.a.setWidth w.bits).setWidth 128) 0#8 }
        refused := s.refused
        draws := s.draws + 1 }

/-- 41_logic.md: "Byte-by-byte evaluation gives the same result as bitwise evaluation over the whole W-bit pattern", the
spec's own inference from the four operators' pseudocode. -/
def Obligations.BytewiseLogicEqualsBitwiseLogic : Prop :=
  ∀ (n : Nat) (a b : BitVec (8 * n)),
    bytewise (· &&& ·) a b = a &&& b ∧ bytewise (· ||| ·) a b = a ||| b ∧ bytewise (· ^^^ ·) a b = a ^^^ b ∧
    bytewiseNot a = ~~~a

/-- 42_shift.md: the byte-level reference algorithm "gives exactly the results of rules R101 and R102 for every a", the spec's
own inference. For every byte width and amount. -/
def Obligations.ByteDecomposedShiftsEqualTheShifts : Prop :=
  ∀ (n : Nat) (a : BitVec (8 * n)) (k : Nat), leftShiftBytes a k = leftShift a k ∧ rightShiftBytes a k = rightShift a k

/-- 42_shift.md, reference construction of the rotates: an OR of two shifts, with no special case for j = 0, the spec's own
inference. -/
def Obligations.RotatesAreTheOrOfTwoShifts : Prop :=
  ∀ (W : Nat) (a : BitVec W) (k : Nat), 0 < W →
    rotateLeft a k = rotateLeftByShifts a k ∧ rotateRight a k = rotateRightByShifts a k

/-- 42_shift.md R107: EML's testable properties of the shifts and rotates. -/
def Obligations.ShiftAndRotateLaws : Prop :=
  ∀ (W : Nat) (a : BitVec W) (k : Nat),
    leftShift a 0 = a ∧ leftShift a W = 0#W ∧
    (0 < k → k ≤ W → leftShift a k = leftShift (leftShift a 1) (k - 1)) ∧
    rotateLeft a W = a ∧ rotateLeft a k = rotateRight a (W - k % W)

/-- 42_shift.md R103 and R104, corner cases: no bit is lost by a rotate, so population_count is unchanged; and a rotate right
is the rotate left by the complement amount. -/
def Obligations.RotatesLoseNoBit : Prop :=
  ∀ (n : Nat) (a : BitVec (8 * n)) (k : Nat),
    populationCount (rotateLeft a k) = populationCount a ∧ populationCount (rotateRight a k) = populationCount a ∧
    rotateRight a k = rotateLeft a ((8 * n - k % (8 * n)) % (8 * n))

/-- 43_count.md: the byte scans "give exactly the results of rules R121 to R124", the spec's own inference. -/
def Obligations.ByteScansEqualTheBitCounts : Prop :=
  ∀ (n : Nat) (a : BitVec (8 * n)),
    leadingZerosBytes a = leadingZeros a ∧ trailingZerosBytes a = trailingZeros a ∧
    leadingOnesBytes a = leadingOnes a ∧ trailingOnesBytes a = trailingOnes a

/-- 43_count.md R126: every counting command answers RES = 0 and a count in [0, W], the count itself and not its residue. -/
def Obligations.CountsStayWithinTheWidth : Prop :=
  ∀ (w : Width) (sg : Signedness) (s : State) (t : Transaction) (rest : List Transaction), s.requests = t :: rest →
    ∀ p : Instr × Nat,
      p ∈ [(Instr.ebmPopulationCount w sg, populationCount (n := w.bytes) (t.request.valueA w)),
        (Instr.ebmLeadingZeros w sg, leadingZeros (t.request.valueA w)),
        (Instr.ebmTrailingZeros w sg, trailingZeros (t.request.valueA w)),
        (Instr.ebmLeadingOnes w sg, leadingOnes (t.request.valueA w)),
        (Instr.ebmTrailingOnes w sg, trailingOnes (t.request.valueA w))] →
      ∃ cnt : CountWord, exec p.1 s = .next
        { requests := rest
          response := some { caller := t.caller, response := .ok 0#128 cnt }
          refused := s.refused
          draws := s.draws + 1 } ∧
        cnt.toNat = p.2 ∧ p.2 ≤ w.bits

/-- 43_count.md R127: EML's testable properties of the counts, with the relations of R123 and R124 to R121 and R122. -/
def Obligations.CountingLaws : Prop :=
  ∀ (n : Nat) (a : BitVec (8 * n)),
    populationCount a + populationCount (~~~a) = 8 * n ∧ leadingZeros (0#(8 * n)) = 8 * n ∧
    trailingOnes (~~~(0#(8 * n))) = 8 * n ∧
    leadingOnes a = leadingZeros (~~~a) ∧ trailingOnes a = trailingZeros (~~~a)

/-- 44_arith.md, reference adder: "This equals rule R141", the spec's own inference. -/
def Obligations.RippleCarryAdderEqualsAdd : Prop :=
  ∀ (n : Nat) (a b : BitVec (8 * n)), addBytes a b = add a b

/-- 44_arith.md, reference subtractor: "This equals rule R142", the spec's own inference. -/
def Obligations.RippleBorrowSubtractorEqualsSubtract : Prop :=
  ∀ (n : Nat) (a b : BitVec (8 * n)), subtractBytes a b = subtract a b

/-- 44_arith.md, reference multiplier: "This equals rule R143", the spec's own inference. -/
def Obligations.LongMultiplierEqualsMultiply : Prop :=
  ∀ (n : Nat) (a b : BitVec (8 * n)), multiplyBytes a b = multiply a b

/-- 44_arith.md, reference divider: it gives "q = uint(a) div uint(b) and r = uint(a) mod uint(b)", the spec's own inference, or
DivisionByZero; and divide and modulo are its two outputs. -/
def Obligations.RestoringDividerEqualsDivideAndModulo : Prop :=
  ∀ (W : Nat) (a b : BitVec W),
    restoringDivMod a b = divMod a b ∧
    divide a b = (restoringDivMod a b).map Prod.fst ∧ modulo a b = (restoringDivMod a b).map Prod.snd

/-- 44_arith.md, signed widths (in part the spec's own inference): add, subtract and multiply are the two's-complement results
reduced to W bits, and divide and modulo are not signed: they give the unsigned quotient and remainder of the patterns. -/
def Obligations.SignedArithmeticReusesTheUnsignedPatterns : Prop :=
  ∀ (W : Nat) (a b : BitVec W),
    add a b = BitVec.ofInt W (a.toInt + b.toInt) ∧ subtract a b = BitVec.ofInt W (a.toInt - b.toInt) ∧
    multiply a b = BitVec.ofInt W (a.toInt * b.toInt) ∧
    (b.toNat ≠ 0 → divide a b = .ok (a.udiv b) ∧ modulo a b = .ok (a.umod b))

/-- 44_arith.md: quotient and remainder of the same operands fit together, the spec's own inference. -/
def Obligations.QuotientAndRemainderRebuildTheDividend : Prop :=
  ∀ (W : Nat) (a b : BitVec W), b.toNat ≠ 0 →
    ∃ q r : BitVec W, divide a b = .ok q ∧ modulo a b = .ok r ∧
      a.toNat = q.toNat * b.toNat + r.toNat ∧ r.toNat < b.toNat

/-- 44_arith.md: EML's testable properties of the Arithmetic Unit, and the one law the spec adds as its own inference. -/
def Obligations.ArithmeticLaws : Prop :=
  ∀ (W : Nat) (a b : BitVec W), 0 < W →
    add a 0#W = a ∧ add a b = add b a ∧ subtract (add a b) b = a ∧ multiply a 0#W = 0#W ∧
    divide a 1#W = .ok a ∧ divide a 0#W = .error .divisionByZero ∧ modulo a 0#W = .error .divisionByZero

/-! ### The whole machine -/

/-- 60_exceptions.md R171, R172: every command answers, and its response is DivisionByZero, with STATUS = 01, exactly if it is
a divide or modulo whose divisor is the zero value of its width. -/
def Obligations.OnlyZeroDivisorsGiveAnError : Prop :=
  ∀ (i : Instr) (s : State) (t : Transaction) (rest : List Transaction), s.requests = t :: rest →
    ∃ (s' : State) (r : Response), exec i s = .next s' ∧ s'.response = some { caller := t.caller, response := r } ∧
      (r = .err .divisionByZero ↔
        (i.opcode = 0x1B#5 ∨ i.opcode = 0x1C#5) ∧ t.request.b.toNat % 2 ^ i.width.bits = 0) ∧
      (s'.statusPort = 0b01#2 ↔ r = .err .divisionByZero) ∧ (s'.statusPort = 0b00#2 ↔ r ≠ .err .divisionByZero)

/-- 10_state.md section 2: the response depends on the request alone, not on earlier or concurrent transactions or on time. For
every admitted request there is one response that the block gives to it in every state, whoever the caller is, and it is
`Exec` of the request. -/
def Obligations.ResponseDependsOnTheRequestAlone : Prop :=
  ∀ q : Request, q.cmd.wellFormed = true →
    ∃ r : Response, transact q = some r ∧
      ∀ (s : State) (t : Transaction) (rest : List Transaction), s.requests = t :: rest → t.request = q →
        step s = .next
          { requests := rest
            response := some { caller := t.caller, response := r }
            refused := s.refused
            draws := s.draws + 1 }

/-- 20_memory.md section 4: with any transactions in flight, in any order, each response equals `Exec` of its own request,
also where others carry reserved words. A run goes on for ever; the k-th transaction has its turn at step k+1, when it gets
`Exec` of its request if its word is admitted, and no response if it is reserved; and where every caller presents admitted
words none is refused. The order is the list in State, the model's choice (log entry 1), and the list is arbitrary; that one
turn takes one step is log entry 11. -/
def Obligations.EachConcurrentTransactionGetsItsOwnExec : Prop :=
  ∀ s : State,
    (∀ n, ∃ s', run n s = .next s' ∧ (s.Conforming → s'.refused = s.refused)) ∧
    ∀ (k : Nat) (t : Transaction), s.requests[k]? = some t →
      ∃ s', run (k + 1) s = .next s' ∧ s'.requests = s.requests.drop (k + 1) ∧
        (t.request.cmd.wellFormed = true →
          ∃ r, transact t.request = some r ∧ s'.response = some { caller := t.caller, response := r }) ∧
        (t.request.cmd.wellFormed = false →
          transact t.request = none ∧ s'.response = none ∧ ∃ why, { caller := t.caller, why := why } ∈ s'.refused)

/-- 20_memory.md section 4: two interleavings of the same transactions (orders of the list in State, the model's choice, log
entry 1) give every admitted one the same response, whatever the others are. -/
def Obligations.InterleavingChangesNoResponse : Prop :=
  ∀ (s₁ s₂ : State) (t : Transaction), s₁.requests.Perm s₂.requests → t ∈ s₁.requests →
    t.request.cmd.wellFormed = true →
    ∃ (k₁ k₂ : Nat) (s₁' s₂' : State), run k₁ s₁ = .next s₁' ∧ run k₂ s₂ = .next s₂' ∧
      s₁'.response.map (·.caller) = some t.caller ∧ s₁'.response.map (·.response) = transact t.request ∧
      s₁'.response = s₂'.response

/-- 30_encoding.md R63: the same request with the signedness tag flipped, which is CMD XOR 0x0100, has the same response, and
is refused where the other is. -/
def Obligations.SignednessTagChangesNoResponse : Prop :=
  ∀ r : Request, transact { r with cmd := r.cmd ^^^ 0x0100#16 } = transact r

/-- 30_encoding.md section 2: a field that the operation does not read changes nothing, bits 127..W of A and B among them, and
of RES and CNT the one that the operation does not write is zero. -/
def Obligations.UnreadFieldsAreIgnored : Prop :=
  ∀ (r r' : Request) (i : Instr), decode r.cmd = .ok i → decode r'.cmd = .ok i →
    r.a.toNat % 2 ^ i.width.bits = r'.a.toNat % 2 ^ i.width.bits →
    (operandForm i = .binary → r.b.toNat % 2 ^ i.width.bits = r'.b.toNat % 2 ^ i.width.bits) →
    (operandForm i = .amount → r.amt = r'.amt) →
    transact r = transact r' ∧
    ∀ res cnt, transact r = some (.ok res cnt) →
      if 0x10 ≤ i.opcode.toNat ∧ i.opcode.toNat ≤ 0x14 then res = 0#128
      else cnt = 0#8 ∧ res.toNat < 2 ^ i.width.bits

/-- 10_state.md section 2: while a response stands on the ports STATUS is 00 or 01, and on OK the ports RES and CNT carry it. -/
def Obligations.PortsCarryTheResponse : Prop :=
  ∀ (s : State) (c : Nat) (r : Response), s.response = some { caller := c, response := r } →
    (s.statusPort = 0b00#2 ∨ s.statusPort = 0b01#2) ∧
    (r = .err .divisionByZero → s.statusPort = 0b01#2) ∧
    ∀ res cnt, r = .ok res cnt → s.statusPort = 0b00#2 ∧ s.resPort = res ∧ s.cntPort = cnt

/-- The invariant: a caller has at most one transaction outstanding (70_reset_and_hazards.md R194), a refused one among them,
and a response is a legal one (10_state.md R27: CNT at most 128, never beside a nonzero RES). Every step keeps it. -/
def Obligations.StepKeepsTheInvariant : Prop :=
  ∀ s s' : State, s.Inv → step s = .next s' → s'.Inv

/-- The invariant holds after reset. -/
def Obligations.ResetMeetsTheInvariant : Prop := State.reset.Inv

/-- 70_reset_and_hazards.md section 3; the form of presenting and of giving up is the model's choice, log entries 6, 8, 12 and 15:
what callers and reset do from outside keeps the invariant too. A request presented takes a place among those in flight,
which stay in their order, with their callers and requests; a caller that has one outstanding presents none; and a caller
that gives up a refused request may present the next. Presenting a command word (`presentCommand`, log entry 6) keeps the
invariant too, also where the presenting caller has a refused request, and that word is the next the block reads. -/
def Obligations.PresentingARequestKeepsTheInvariant : Prop :=
  ∀ (s : State) (place : Nat) (t : Transaction), s.Inv →
    (s.issue place t).Inv ∧ s.assertReset.Inv ∧ (s.giveUp t.caller).Inv ∧
    (∀ cmd : Command, (s.presentCommand cmd).Inv ∧ (s.presentCommand cmd).nextCommand = some cmd) ∧
    (t.caller ∈ s.callers → s.issue place t = s) ∧
    (t.caller ∉ s.requests.map (·.caller) → t.caller ∉ (s.giveUp t.caller).callers) ∧
    (t.caller ∉ s.callers →
      ∃ before after : List Transaction, (s.issue place t).requests = before ++ t :: after ∧
        (before ++ after).map (fun u => (u.caller, u.request)) = s.requests.map (fun u => (u.caller, u.request)))

/-- 70_reset_and_hazards.md section 1: after reset no transaction is pending, none has been refused and no
response has been delivered. -/
def Obligations.ResetLeavesNothingPending : Prop :=
  State.reset.requests = [] ∧ State.reset.response = none ∧ State.reset.refused = [] ∧ Sys2Proof.core.reset = State.reset

/-- 70_reset_and_hazards.md section 1 (a request "issued again" in part the spec's own inference): after reset is asserted no
response is ever delivered for a transaction that was in flight, however long one waits, and none is outstanding that would
keep its caller from issuing it again; and a transaction issued after that gets the response it would get at any other
time. -/
def Obligations.ResetAbandonsTransactionsInFlight : Prop :=
  ∀ (s : State) (k : Nat), ∃ s', run k s.assertReset = .next s' ∧ s'.requests = [] ∧ s'.response = none ∧
    s'.refused = [] ∧
    ∀ t : Transaction, t.request.cmd.wellFormed = true →
      ∃ (r : Response) (s'' : State), transact t.request = some r ∧ step (s'.issue 0 t) = .next s'' ∧
        s''.response = some { caller := t.caller, response := r } ∧ s''.requests = []

/-- 30_encoding.md sections 3 and 4: an assembled command decodes to the instruction it names and its operands are the literals
written, in request order, and an amount of 2^32 or more has no command (section 3). That a value or a byte too wide for its
width stands for no request, so that no literal is cut down, is the model's choice: log entry 14, from 20_memory.md
section 3. -/
def Obligations.AssembledOperandsAreTheLiteralsWritten : Prop :=
  ∀ (i : Instr) (ops : List Nat) (r : Request), requestOf i ops = some r →
    decode r.cmd = .ok i ∧
    (operandForm i = .unary → ops = [(r.valueA i.width).toNat]) ∧
    (operandForm i = .binary → ops = [(r.valueA i.width).toNat, (r.valueB i.width).toNat]) ∧
    (operandForm i = .amount → ops = [(r.valueA i.width).toNat, r.amount] ∧ r.amount < 2 ^ 32) ∧
    (operandForm i = .byteList → ops = (r.lanesA i.width.bytes).toList.map BitVec.toNat)

/-- 70_reset_and_hazards.md section 3: each response comes after a finite time, whatever other callers present meanwhile,
reserved words among it, and give up. An admitted transaction at place k is answered with `Exec` of its request by the step
number k + patience + 1 at the latest, if reset does not intervene. That requests presented later may be answered earlier
at most `patience` times, any finite number, is the model's choice (log entry 15), and so is one step for one transaction
(log entries 1 and 11). -/
def Obligations.EveryAdmittedTransactionIsAnsweredInTime : Prop :=
  ∀ (s : State) (k : Nat) (t : Transaction) (events : List Event), s.requests[k]? = some t →
    t.request.cmd.wellFormed = true → Event.assertReset ∉ events → k + t.patience + 1 ≤ events.count .step →
    ∃ (before after : List Event) (s' : State) (r : Response), events = before ++ .step :: after ∧
      before.count .step ≤ k + t.patience ∧ runEvents (before ++ [.step]) s = .next s' ∧
      transact t.request = some r ∧ s'.response = some { caller := t.caller, response := r }
end

