-- ==== Sys2Proof/Laws/State.lean ====
section
/-! SUPPORT. What each operation on the state does to each field of it, by rfl, so that no proof unfolds a record update. -/

namespace Sys2Proof.Machine

@[simp] theorem State.reset_requests : State.reset.requests = [] := rfl
@[simp] theorem State.reset_response : State.reset.response = none := rfl
@[simp] theorem State.reset_refused : State.reset.refused = [] := rfl
@[simp] theorem State.reset_draws : State.reset.draws = 0 := rfl

@[simp] theorem State.idle_requests (s : State) : s.idle.requests = s.requests := rfl
@[simp] theorem State.idle_response (s : State) : s.idle.response = none := rfl
@[simp] theorem State.idle_refused (s : State) : s.idle.refused = s.refused := rfl
@[simp] theorem State.idle_draws (s : State) : s.idle.draws = s.draws + 1 := rfl

@[simp] theorem State.assertReset_requests (s : State) : s.assertReset.requests = [] := rfl
@[simp] theorem State.assertReset_response (s : State) : s.assertReset.response = none := rfl
@[simp] theorem State.assertReset_refused (s : State) : s.assertReset.refused = [] := rfl
@[simp] theorem State.assertReset_draws (s : State) : s.assertReset.draws = s.draws + 1 := rfl

@[simp] theorem State.giveUp_requests (c : Nat) (s : State) : (s.giveUp c).requests = s.requests := rfl
@[simp] theorem State.giveUp_response (c : Nat) (s : State) : (s.giveUp c).response = s.response := rfl
@[simp] theorem State.giveUp_refused (c : Nat) (s : State) :
    (s.giveUp c).refused = s.refused.filter (·.caller ≠ c) := rfl
@[simp] theorem State.giveUp_draws (c : Nat) (s : State) : (s.giveUp c).draws = s.draws := rfl

@[simp] theorem Transaction.overtaken_caller (t : Transaction) : t.overtaken.caller = t.caller := rfl
@[simp] theorem Transaction.overtaken_request (t : Transaction) : t.overtaken.request = t.request := rfl
@[simp] theorem Transaction.overtaken_patience (t : Transaction) : t.overtaken.patience = t.patience - 1 := rfl

theorem State.issue_of_mem {s : State} {t : Transaction} (place : Nat) (h : t.caller ∈ s.callers) :
    s.issue place t = s := by simp [State.issue, h]

theorem State.issue_of_not_mem {s : State} {t : Transaction} (place : Nat) (h : t.caller ∉ s.callers) :
    s.issue place t = { s with requests := enter place t s.requests } := by
  simp [State.issue, h]

@[simp] theorem State.issue_response (s : State) (place : Nat) (t : Transaction) :
    (s.issue place t).response = s.response := by
  unfold State.issue
  split <;> rfl

@[simp] theorem State.issue_refused (s : State) (place : Nat) (t : Transaction) :
    (s.issue place t).refused = s.refused := by
  unfold State.issue
  split <;> rfl

@[simp] theorem State.issue_draws (s : State) (place : Nat) (t : Transaction) :
    (s.issue place t).draws = s.draws := by
  unfold State.issue
  split <;> rfl

@[simp] theorem State.presentCommand_response (cmd : Command) (s : State) :
    (s.presentCommand cmd).response = s.response := by
  unfold State.presentCommand
  split <;> rfl

/-- With nothing in flight, caller 0 gives up what was refused to it, and no other caller does. -/
theorem State.presentCommand_refused_nil {s : State} (cmd : Command) (h : s.requests = []) :
    (s.presentCommand cmd).refused = s.refused.filter (·.caller ≠ 0) := by
  simp [State.presentCommand, h]

theorem State.presentCommand_refused_cons {s : State} {t : Transaction} {rest : List Transaction} (cmd : Command)
    (h : s.requests = t :: rest) : (s.presentCommand cmd).refused = s.refused := by
  simp [State.presentCommand, h]

@[simp] theorem State.presentCommand_draws (cmd : Command) (s : State) :
    (s.presentCommand cmd).draws = s.draws := by
  unfold State.presentCommand
  split <;> rfl

/-- The command presented is the one the block reads next. -/
@[simp] theorem State.presentCommand_nextCommand (cmd : Command) (s : State) :
    (s.presentCommand cmd).nextCommand = some cmd := by
  unfold State.presentCommand
  split <;> rfl

theorem State.nextCommand_nil {s : State} (h : s.requests = []) : s.nextCommand = none := by
  simp [State.nextCommand, h]

theorem State.nextCommand_cons {s : State} {t : Transaction} {rest : List Transaction} (h : s.requests = t :: rest) :
    s.nextCommand = some t.request.cmd := by
  simp [State.nextCommand, h]

end Sys2Proof.Machine
end

