-- ==== Sys2Proof/Laws/Ops.lean ====
section
/-! SUPPORT. Everything `answer`, `refuse`, `step` and `enter` can do, said once. -/

namespace Sys2Proof.Machine

/-- With a transaction in flight, `answer` gives it the response and leaves the others. -/
theorem answer_cons {s : State} {t : Transaction} {rest : List Transaction} (op : Request → Response)
    (h : s.requests = t :: rest) :
    answer op s = .next
      { requests := rest
        response := some { caller := t.caller, response := op t.request }
        refused := s.refused
        draws := s.draws + 1 } := by
  simp [answer, h]

/-- With nothing in flight, `answer` idles. -/
theorem answer_nil {s : State} (op : Request → Response) (h : s.requests = []) : answer op s = .next s.idle := by
  simp [answer, h]

/-- If `answer` gives a next state, then one of these two cases holds. -/
theorem answer_cases {s s' : State} {op : Request → Response} (h : answer op s = .next s') :
    (s.requests = [] ∧ s' = s.idle) ∨
    (∃ t rest, s.requests = t :: rest ∧
      s' =
        { requests := rest
          response := some { caller := t.caller, response := op t.request }
          refused := s.refused
          draws := s.draws + 1 }) := by
  cases hr : s.requests with
  | nil => exact .inl ⟨rfl, by simpa [answer_nil op hr] using h.symm⟩
  | cons t rest => exact .inr ⟨t, rest, rfl, by simpa [answer_cons op hr] using h.symm⟩

theorem step_nil {s : State} (h : s.requests = []) : step s = .next s.idle := by
  simp [step, State.nextCommand_nil h]

/-- With a transaction in flight, `refuse` removes it without a response and leaves the others. -/
theorem refuse_cons {s : State} {t : Transaction} {rest : List Transaction} (why : Reserved)
    (h : s.requests = t :: rest) :
    refuse why s = .next
      { requests := rest
        response := none
        refused := s.refused ++ [{ caller := t.caller, why := why }]
        draws := s.draws + 1 } := by
  simp [refuse, h]

/-- With nothing in flight, `refuse` idles. -/
theorem refuse_nil {s : State} (why : Reserved) (h : s.requests = []) : refuse why s = .next s.idle := by
  simp [refuse, h]

/-- A reserved command word is refused by its reason, whatever the operands (60_exceptions.md R178). -/
theorem step_reserved {s : State} {t : Transaction} {rest : List Transaction} {why : Reserved}
    (h : s.requests = t :: rest) (hd : decode t.request.cmd = .error why) : step s = refuse why s := by
  simp [step, State.nextCommand_cons h, hd]

/-- If a step gives a next state, then nothing was in flight, or the first transaction was refused, or it got the response to
its request. -/
theorem step_cases {s s' : State} (h : step s = .next s') :
    (s.requests = [] ∧ s' = s.idle) ∨
    (∃ t rest why, s.requests = t :: rest ∧ decode t.request.cmd = .error why ∧
      s' = { requests := rest, response := none, refused := s.refused ++ [{ caller := t.caller, why := why }],
             draws := s.draws + 1 }) ∨
    (∃ t rest i, s.requests = t :: rest ∧ decode t.request.cmd = .ok i ∧ exec i s = .next s') := by
  cases hr : s.requests with
  | nil => exact .inl ⟨rfl, by simpa [step_nil hr] using h.symm⟩
  | cons t rest =>
    cases hd : decode t.request.cmd with
    | error why =>
      rw [step_reserved hr hd, refuse_cons why hr] at h
      exact .inr (.inl ⟨t, rest, why, rfl, hd, by simpa using h.symm⟩)
    | ok i => exact .inr (.inr ⟨t, rest, i, rfl, hd, by simpa [step, State.nextCommand_cons hr, hd] using h⟩)

/-- A transaction enters at some place from the one asked for and the first free one on: those before it stay as they are, and
those behind it stay in their order, each overtaken once. -/
theorem enter_shape (place : Nat) (t : Transaction) (ts : List Transaction) :
    ∃ p, place ≤ p ∧ firstFreePlace ts ≤ p ∧
      enter place t ts = ts.take p ++ t :: (ts.drop p).map Transaction.overtaken :=
  ⟨max place (firstFreePlace ts), le_max_left .., le_max_right .., rfl⟩

/-- No transaction that has lost its patience stands at or behind the first free place, so none of those is overtaken. -/
theorem patience_behind_firstFreePlace :
    ∀ (ts : List Transaction) (j : Nat) (t : Transaction), ts[j]? = some t → firstFreePlace ts ≤ j → t.patience ≠ 0
  | [], j, t, h, _ => by simp at h
  | u :: us, 0, t, h, hj => by
    simp only [List.getElem?_cons_zero, Option.some.injEq] at h
    subst h
    unfold firstFreePlace at hj
    split at hj
    · rename_i hc
      exact hc.2
    · omega
  | u :: us, j + 1, t, h, hj => by
    refine patience_behind_firstFreePlace us j t (by simpa using h) ?_
    unfold firstFreePlace at hj
    split at hj
    · rename_i hc
      omega
    · omega

end Sys2Proof.Machine
end

