-- ==== Sys2Proof/Laws/Exec.lean ====
section
/-! SUPPORT. One equation per instruction: exec of it is `answer` with its response, so that no proof unfolds exec. -/

namespace Sys2Proof.Machine

section
variable (w : Width) (sg : Signedness) (s : State)

theorem exec_ebmToBytes :
    exec (.ebmToBytes w sg) s = answer (fun r => bytesResponse (toBytes (n := w.bytes) (r.valueA w))) s := rfl

theorem exec_ebmFromBytes :
    exec (.ebmFromBytes w sg) s = answer (fun r => valueResponse (fromBytes (r.lanesA w.bytes))) s := rfl

theorem exec_ebmAnd : exec (.ebmAnd w sg) s = answer (fun r => valueResponse (r.valueA w &&& r.valueB w)) s := rfl

theorem exec_ebmOr : exec (.ebmOr w sg) s = answer (fun r => valueResponse (r.valueA w ||| r.valueB w)) s := rfl

theorem exec_ebmXor : exec (.ebmXor w sg) s = answer (fun r => valueResponse (r.valueA w ^^^ r.valueB w)) s := rfl

theorem exec_ebmNot : exec (.ebmNot w sg) s = answer (fun r => valueResponse (~~~ r.valueA w)) s := rfl

theorem exec_ebmLeftShift :
    exec (.ebmLeftShift w sg) s = answer (fun r => valueResponse (leftShift (r.valueA w) r.amount)) s := rfl

theorem exec_ebmRightShift :
    exec (.ebmRightShift w sg) s = answer (fun r => valueResponse (rightShift (r.valueA w) r.amount)) s := rfl

theorem exec_ebmRotateLeft :
    exec (.ebmRotateLeft w sg) s = answer (fun r => valueResponse (rotateLeft (r.valueA w) r.amount)) s := rfl

theorem exec_ebmRotateRight :
    exec (.ebmRotateRight w sg) s = answer (fun r => valueResponse (rotateRight (r.valueA w) r.amount)) s := rfl

theorem exec_ebmPopulationCount :
    exec (.ebmPopulationCount w sg) s = answer (fun r => countResponse (populationCount (n := w.bytes) (r.valueA w))) s := rfl

theorem exec_ebmLeadingZeros :
    exec (.ebmLeadingZeros w sg) s = answer (fun r => countResponse (leadingZeros (r.valueA w))) s := rfl

theorem exec_ebmTrailingZeros :
    exec (.ebmTrailingZeros w sg) s = answer (fun r => countResponse (trailingZeros (r.valueA w))) s := rfl

theorem exec_ebmLeadingOnes :
    exec (.ebmLeadingOnes w sg) s = answer (fun r => countResponse (leadingOnes (r.valueA w))) s := rfl

theorem exec_ebmTrailingOnes :
    exec (.ebmTrailingOnes w sg) s = answer (fun r => countResponse (trailingOnes (r.valueA w))) s := rfl

theorem exec_ebmAdd : exec (.ebmAdd w sg) s = answer (fun r => valueResponse (add (r.valueA w) (r.valueB w))) s := rfl

theorem exec_ebmSubtract :
    exec (.ebmSubtract w sg) s = answer (fun r => valueResponse (subtract (r.valueA w) (r.valueB w))) s := rfl

theorem exec_ebmMultiply :
    exec (.ebmMultiply w sg) s = answer (fun r => valueResponse (multiply (r.valueA w) (r.valueB w))) s := rfl

theorem exec_ebmDivide :
    exec (.ebmDivide w sg) s = answer (fun r => outcomeResponse (divide (r.valueA w) (r.valueB w))) s := rfl

theorem exec_ebmModulo :
    exec (.ebmModulo w sg) s = answer (fun r => outcomeResponse (modulo (r.valueA w) (r.valueB w))) s := rfl

end

/-- Every meaning is one `answer`: it reads the first request in flight and nothing else of the state. -/
theorem exec_is_answer (i : Instr) : ∃ op : Request → Response, ∀ s, exec i s = answer op s := by
  cases i with
  | ebmToBytes w sg => exact ⟨_, exec_ebmToBytes w sg⟩
  | ebmFromBytes w sg => exact ⟨_, exec_ebmFromBytes w sg⟩
  | ebmAnd w sg => exact ⟨_, exec_ebmAnd w sg⟩
  | ebmOr w sg => exact ⟨_, exec_ebmOr w sg⟩
  | ebmXor w sg => exact ⟨_, exec_ebmXor w sg⟩
  | ebmNot w sg => exact ⟨_, exec_ebmNot w sg⟩
  | ebmLeftShift w sg => exact ⟨_, exec_ebmLeftShift w sg⟩
  | ebmRightShift w sg => exact ⟨_, exec_ebmRightShift w sg⟩
  | ebmRotateLeft w sg => exact ⟨_, exec_ebmRotateLeft w sg⟩
  | ebmRotateRight w sg => exact ⟨_, exec_ebmRotateRight w sg⟩
  | ebmPopulationCount w sg => exact ⟨_, exec_ebmPopulationCount w sg⟩
  | ebmLeadingZeros w sg => exact ⟨_, exec_ebmLeadingZeros w sg⟩
  | ebmTrailingZeros w sg => exact ⟨_, exec_ebmTrailingZeros w sg⟩
  | ebmLeadingOnes w sg => exact ⟨_, exec_ebmLeadingOnes w sg⟩
  | ebmTrailingOnes w sg => exact ⟨_, exec_ebmTrailingOnes w sg⟩
  | ebmAdd w sg => exact ⟨_, exec_ebmAdd w sg⟩
  | ebmSubtract w sg => exact ⟨_, exec_ebmSubtract w sg⟩
  | ebmMultiply w sg => exact ⟨_, exec_ebmMultiply w sg⟩
  | ebmDivide w sg => exact ⟨_, exec_ebmDivide w sg⟩
  | ebmModulo w sg => exact ⟨_, exec_ebmModulo w sg⟩

end Sys2Proof.Machine
end

