-- ==== Sys2Proof/Laws/Operands.lean ====
section
/-! SUPPORT. The widths, and operand assembly and result placement bit by bit and as numbers. -/

namespace Sys2Proof

theorem Width.bytes_pos (w : Width) : 0 < w.bytes := by cases w <;> simp [Width.bytes]

theorem Width.bytes_le (w : Width) : w.bytes ≤ 16 := by
  cases w <;> simp [Width.bytes]

theorem Width.bits_pos (w : Width) : 0 < w.bits := by
  have := w.bytes_pos
  unfold Width.bits
  omega

theorem Width.bits_le (w : Width) : w.bits ≤ 128 := by
  have := w.bytes_le
  unfold Width.bits
  omega

end Sys2Proof

namespace Sys2Proof.Machine

@[simp] theorem Request.valueA_toNat (r : Request) (w : Width) : (r.valueA w).toNat = r.a.toNat % 2 ^ w.bits := by
  simp [Request.valueA]

@[simp] theorem Request.valueB_toNat (r : Request) (w : Width) : (r.valueB w).toNat = r.b.toNat % 2 ^ w.bits := by
  simp [Request.valueB]

@[simp] theorem Request.valueA_getLsbD (r : Request) (w : Width) (i : Nat) :
    (r.valueA w).getLsbD i = (decide (i < w.bits) && r.a.getLsbD i) := by
  simp [Request.valueA]

@[simp] theorem Request.valueB_getLsbD (r : Request) (w : Width) (i : Nat) :
    (r.valueB w).getLsbD i = (decide (i < w.bits) && r.b.getLsbD i) := by
  simp [Request.valueB]

@[simp] theorem Request.valueA_getElem (r : Request) (w : Width) (i : Nat) (h : i < w.bits) :
    (r.valueA w)[i] = r.a.getLsbD i := by
  simp [Request.valueA]

@[simp] theorem Request.valueB_getElem (r : Request) (w : Width) (i : Nat) (h : i < w.bits) :
    (r.valueB w)[i] = r.b.getLsbD i := by
  simp [Request.valueB]

@[simp] theorem lane_getElem (bus : Bus) (i j : Nat) (h : j < 8) : (lane bus i)[j] = bus.getLsbD (8 * i + j) := by
  simp [lane]

@[simp] theorem lane_getLsbD (bus : Bus) (i j : Nat) :
    (lane bus i).getLsbD j = (decide (j < 8) && bus.getLsbD (8 * i + j)) := by
  simp [lane]

@[simp] theorem concatBytes_nil (W : Nat) : concatBytes W [] = 0#W := rfl

theorem concatBytes_cons (W : Nat) (b : Byte) (bs : List Byte) :
    concatBytes W (b :: bs) = concatBytes W bs <<< 8 ||| b.setWidth W := rfl

/-- Bit j of a concatenation is bit j mod 8 of element j div 8. -/
theorem concatBytes_getLsbD (W : Nat) (bs : List Byte) (j : Nat) :
    (concatBytes W bs).getLsbD j = (decide (j < W) && (bs.getD (j / 8) 0#8).getLsbD (j % 8)) := by
  induction bs generalizing j with
  | nil => simp
  | cons b bs ih =>
    rw [concatBytes_cons, BitVec.getLsbD_or, BitVec.getLsbD_shiftLeft, ih, BitVec.getLsbD_setWidth]
    by_cases h8 : j < 8
    · have h0 : j / 8 = 0 := by omega
      have h1 : j % 8 = j := by omega
      simp [h8, h0, h1]
    · have h0 : j / 8 = (j - 8) / 8 + 1 := by omega
      have h1 : (j - 8) % 8 = j % 8 := by omega
      have h2 : b.getLsbD j = false := BitVec.getLsbD_of_ge b j (by omega)
      simp only [h8, h0, h1, h2, List.getD_cons_succ]
      by_cases hW : j < W
      · simp [hW, show j - 8 < W by omega]
      · simp [hW]

@[simp] theorem toBytes_getElem {n : Nat} (a : BitVec (8 * n)) (i : Nat) (h : i < n) :
    (toBytes a)[i] = a.extractLsb' (8 * i) 8 := by
  simp [toBytes]

@[simp] theorem Request.lanesA_getElem (r : Request) (n i : Nat) (h : i < n) : (r.lanesA n)[i] = lane r.a i := by
  simp [Request.lanesA]

/-- Bit j of `from_bytes` is bit j mod 8 of byte j div 8 (40_byteview.md R81). -/
theorem fromBytes_getLsbD {n : Nat} (bs : Bytes n) (j : Nat) (h : j < 8 * n) :
    (fromBytes bs).getLsbD j = (bs[j / 8]'(by omega)).getLsbD (j % 8) := by
  have hlt : j / 8 < bs.toList.length := by simp; omega
  rw [fromBytes, concatBytes_getLsbD, List.getD_eq_getElem _ _ hlt]
  simp [h]

end Sys2Proof.Machine
end

