-- ==== Sys2Proof/Laws/PerInstr.lean ====
section
/-! SUPPORT. One family of facts about every instruction as syntax: its word is an admitted one (30_encoding.md R65). -/

namespace Sys2Proof.Laws.EncodedWordAdmitted

/-- The word that encodes the instruction is none of those 30_encoding.md R65 reserves. -/
def Statement (i : Instr) : Prop := Command.wellFormed (encode i) = true

theorem ebmToBytes (w : Width) (sg : Signedness) : Statement (.ebmToBytes w sg) := by cases w <;> cases sg <;> rfl
theorem ebmFromBytes (w : Width) (sg : Signedness) : Statement (.ebmFromBytes w sg) := by cases w <;> cases sg <;> rfl
theorem ebmAnd (w : Width) (sg : Signedness) : Statement (.ebmAnd w sg) := by cases w <;> cases sg <;> rfl
theorem ebmOr (w : Width) (sg : Signedness) : Statement (.ebmOr w sg) := by cases w <;> cases sg <;> rfl
theorem ebmXor (w : Width) (sg : Signedness) : Statement (.ebmXor w sg) := by cases w <;> cases sg <;> rfl
theorem ebmNot (w : Width) (sg : Signedness) : Statement (.ebmNot w sg) := by cases w <;> cases sg <;> rfl
theorem ebmLeftShift (w : Width) (sg : Signedness) : Statement (.ebmLeftShift w sg) := by cases w <;> cases sg <;> rfl
theorem ebmRightShift (w : Width) (sg : Signedness) : Statement (.ebmRightShift w sg) := by cases w <;> cases sg <;> rfl
theorem ebmRotateLeft (w : Width) (sg : Signedness) : Statement (.ebmRotateLeft w sg) := by cases w <;> cases sg <;> rfl
theorem ebmRotateRight (w : Width) (sg : Signedness) : Statement (.ebmRotateRight w sg) := by cases w <;> cases sg <;> rfl
theorem ebmPopulationCount (w : Width) (sg : Signedness) : Statement (.ebmPopulationCount w sg) := by cases w <;> cases sg <;> rfl
theorem ebmLeadingZeros (w : Width) (sg : Signedness) : Statement (.ebmLeadingZeros w sg) := by cases w <;> cases sg <;> rfl
theorem ebmTrailingZeros (w : Width) (sg : Signedness) : Statement (.ebmTrailingZeros w sg) := by cases w <;> cases sg <;> rfl
theorem ebmLeadingOnes (w : Width) (sg : Signedness) : Statement (.ebmLeadingOnes w sg) := by cases w <;> cases sg <;> rfl
theorem ebmTrailingOnes (w : Width) (sg : Signedness) : Statement (.ebmTrailingOnes w sg) := by cases w <;> cases sg <;> rfl
theorem ebmAdd (w : Width) (sg : Signedness) : Statement (.ebmAdd w sg) := by cases w <;> cases sg <;> rfl
theorem ebmSubtract (w : Width) (sg : Signedness) : Statement (.ebmSubtract w sg) := by cases w <;> cases sg <;> rfl
theorem ebmMultiply (w : Width) (sg : Signedness) : Statement (.ebmMultiply w sg) := by cases w <;> cases sg <;> rfl
theorem ebmDivide (w : Width) (sg : Signedness) : Statement (.ebmDivide w sg) := by cases w <;> cases sg <;> rfl
theorem ebmModulo (w : Width) (sg : Signedness) : Statement (.ebmModulo w sg) := by cases w <;> cases sg <;> rfl

end Sys2Proof.Laws.EncodedWordAdmitted
end

