-- ==== Sys2Proof/Tests/Slice0.lean ====
section
/-! SUPPORT. The model's own tests. Expected results come from 95_test_vectors.md and from the examples in the rules named;
words are written out from 30_encoding.md. Each `test_<operation>` that runs one request is also a witness: its state meets
the hypothesis `s.requests = t :: rest` of that operation's statement. -/

namespace Sys2Proof.Tests

open Sys2Proof.Machine

/-- One request of caller 7 in flight, nothing delivered before. -/
def one (cmd : Command) (a b : Bus) (amt : Amount) : State :=
  { requests := [{ caller := 7, patience := 0, request := { cmd := cmd, a := a, b := b, amt := amt } }]
    response := none
    refused := []
    draws := 0 }

/-- The response a step delivers, with its caller. -/
def delivered (r : Result) : Option Delivery :=
  match r with
  | .next s => s.response
  | .fault _ => none
  | .refused _ => none

/-- An OK response to caller 7. -/
def okFor7 (res : Bus) (cnt : CountWord) : Option Delivery := some { caller := 7, response := .ok res cnt }

/-- A DIVZ response to caller 7. -/
def divzFor7 : Option Delivery := some { caller := 7, response := .err .divisionByZero }

/-! ### Well-formedness: each check refuses a word that only it can refuse (95_test_vectors.md 2.7) -/

theorem test_wellFormed_refuses_rsv :
    Command.rsvClear 0x0204#16 = false ∧ Command.opAssigned 0x0204#16 = true ∧ Command.widAssigned 0x0204#16 = true := by
  decide

theorem test_wellFormed_refuses_op :
    Command.rsvClear 0x0002#16 = true ∧ Command.opAssigned 0x0002#16 = false ∧ Command.widAssigned 0x0002#16 = true := by
  decide

theorem test_wellFormed_refuses_wid :
    Command.rsvClear 0x00C4#16 = true ∧ Command.opAssigned 0x00C4#16 = true ∧ Command.widAssigned 0x00C4#16 = false := by
  decide

theorem test_wellFormed_admits : Command.wellFormed 0x014A#16 = true := by decide

/-! ### Decoding: RSV, S, WID, OP written out bit by bit from 30_encoding.md R60 to R63, every operation -/

theorem test_decode_byteView :
    decode 0b0000000_0_000_00000#16 = .ok (.ebmToBytes .w8 .unsigned) ∧
    decode 0b0000000_1_011_00001#16 = .ok (.ebmFromBytes .w64 .signed) := ⟨rfl, rfl⟩

theorem test_decode_logic :
    decode 0b0000000_0_001_00100#16 = .ok (.ebmAnd .w16 .unsigned) ∧
    decode 0b0000000_1_010_00101#16 = .ok (.ebmOr .w32 .signed) ∧
    decode 0b0000000_0_100_00110#16 = .ok (.ebmXor .w128 .unsigned) ∧
    decode 0b0000000_1_101_00111#16 = .ok (.ebmNot .wn .signed) := ⟨rfl, rfl, rfl, rfl⟩

theorem test_decode_shift :
    decode 0b0000000_0_001_01000#16 = .ok (.ebmLeftShift .w16 .unsigned) ∧
    decode 0b0000000_1_000_01001#16 = .ok (.ebmRightShift .w8 .signed) ∧
    decode 0b0000000_1_010_01010#16 = .ok (.ebmRotateLeft .w32 .signed) ∧
    decode 0b0000000_0_011_01011#16 = .ok (.ebmRotateRight .w64 .unsigned) := ⟨rfl, rfl, rfl, rfl⟩

theorem test_decode_count :
    decode 0b0000000_1_010_10000#16 = .ok (.ebmPopulationCount .w32 .signed) ∧
    decode 0b0000000_0_101_10001#16 = .ok (.ebmLeadingZeros .wn .unsigned) ∧
    decode 0b0000000_0_010_10010#16 = .ok (.ebmTrailingZeros .w32 .unsigned) ∧
    decode 0b0000000_1_000_10011#16 = .ok (.ebmLeadingOnes .w8 .signed) ∧
    decode 0b0000000_0_100_10100#16 = .ok (.ebmTrailingOnes .w128 .unsigned) := ⟨rfl, rfl, rfl, rfl, rfl⟩

theorem test_decode_arith :
    decode 0b0000000_0_000_11000#16 = .ok (.ebmAdd .w8 .unsigned) ∧
    decode 0b0000000_1_010_11001#16 = .ok (.ebmSubtract .w32 .signed) ∧
    decode 0b0000000_0_001_11010#16 = .ok (.ebmMultiply .w16 .unsigned) ∧
    decode 0b0000000_1_001_11011#16 = .ok (.ebmDivide .w16 .signed) ∧
    decode 0b0000000_0_101_11100#16 = .ok (.ebmModulo .wn .unsigned) := ⟨rfl, rfl, rfl, rfl, rfl⟩

theorem test_decode_reserved :
    decode 0b1000000_0_000_11000#16 = .error .rsvNonzero ∧ decode 0b0000000_0_000_11111#16 = .error .opUnassigned ∧
    decode 0b0000000_0_111_00100#16 = .error .widReserved := ⟨rfl, rfl, rfl⟩

/-- The numbering of the opcode table: 16 bits, bit 0 the least significant. -/
theorem test_decodeTableWord :
    decodeTableWord 16 0x014A = some (.ebmRotateLeft .w32 .signed) ∧ decodeTableWord 16 0x0002 = none := ⟨rfl, rfl⟩

/-! ### The operations -/

/-- 95_test_vectors.md 2.1: lanes `[0x04, 0x03, 0x02, 0x01]`; bits of A above W are ignored (30_encoding.md R68). -/
theorem test_toBytes : delivered (step (one 0x0040 0xFF01020304 0 0)) = okFor7 0x01020304 0 := by decide

theorem test_toBytes_order : toBytes (n := 4) 0x01020304#32 = #v[0x04, 0x03, 0x02, 0x01] := by decide

/-- 95_test_vectors.md 2.1: lanes `[0x34, 0x12]` give 0x1234. -/
theorem test_fromBytes : delivered (step (one 0x0021 0x1234 0 0)) = okFor7 0x1234 0 := by decide

theorem test_fromBytes_order : fromBytes (n := 2) #v[0x34, 0x12] = 0x1234#16 := by decide

/-- 95_test_vectors.md S1. -/
theorem test_and : delivered (step (one 0x0004 0xCA 0xAA 0)) = okFor7 0x8A 0 := by decide

/-- 95_test_vectors.md 2.2. -/
theorem test_or : delivered (step (one 0x0025 0x00F0 0x0F00 0)) = okFor7 0x0FF0 0 := by decide

/-- 95_test_vectors.md 2.2. -/
theorem test_xor : delivered (step (one 0x0006 0xFF 0x0F 0)) = okFor7 0xF0 0 := by decide

/-- 95_test_vectors.md 2.2. -/
theorem test_not : delivered (step (one 0x0127 0x0005 0 0)) = okFor7 0xFFFA 0 := by decide

/-- 95_test_vectors.md 2.3: an amount above W. -/
theorem test_leftShift : delivered (step (one 0x0028 0x8001 0 4294967295)) = okFor7 0 0 := by decide

theorem test_leftShift_64 :
    delivered (step (one 0x0068 0x0123456789ABCDEF 0 12)) = okFor7 0x3456789ABCDEF000 0 := by decide

/-- 95_test_vectors.md 2.3: i8, logical, no sign extension. -/
theorem test_rightShift : delivered (step (one 0x0109 0x80 0 1)) = okFor7 0x40 0 := by decide

theorem test_rightShift_128 :
    delivered (step (one 0x0089 0x80000000000000000000000000000000 0 127)) = okFor7 1 0 := by decide

/-- 95_test_vectors.md 2.3. -/
theorem test_rotateLeft : delivered (step (one 0x000A 0x81 0 4294967295)) = okFor7 0xC0 0 := by decide

theorem test_rotateLeft_16 : delivered (step (one 0x002A 0x1234 0 4)) = okFor7 0x2341 0 := by decide

/-- 95_test_vectors.md 2.3. -/
theorem test_rotateRight : delivered (step (one 0x002B 0x1234 0 4)) = okFor7 0x4123 0 := by decide

theorem test_rotateRight_128 :
    delivered (step (one 0x008B 1 0 129)) = okFor7 0x80000000000000000000000000000000 0 := by decide

/-- 95_test_vectors.md 2.4. -/
theorem test_populationCount : delivered (step (one 0x0150 0x80000000 0 0)) = okFor7 0 1 := by decide

/-- 95_test_vectors.md 2.4. -/
theorem test_leadingZeros : delivered (step (one 0x0051 1 0 0)) = okFor7 0 31 := by decide

/-- 95_test_vectors.md 2.4: a = 0 gives W. -/
theorem test_leadingZeros_zero : delivered (step (one 0x0011 0 0 0)) = okFor7 0 8 := by decide

/-- 95_test_vectors.md 2.4. -/
theorem test_trailingZeros : delivered (step (one 0x0052 0x00010000 0 0)) = okFor7 0 16 := by decide

/-- 95_test_vectors.md 2.4: a = 0 gives W. -/
theorem test_trailingZeros_zero : delivered (step (one 0x0012 0 0 0)) = okFor7 0 8 := by decide

/-- 95_test_vectors.md 2.4. -/
theorem test_leadingOnes : delivered (step (one 0x0153 0xFFFFFFFE 0 0)) = okFor7 0 31 := by decide

/-- 95_test_vectors.md 2.4: full_ones gives W. -/
theorem test_leadingOnes_full : delivered (step (one 0x0013 0xFF 0 0)) = okFor7 0 8 := by decide

/-- 95_test_vectors.md 2.4. -/
theorem test_trailingOnes_one : delivered (step (one 0x0014 0x07 0 0)) = okFor7 0 3 := by decide

/-- 95_test_vectors.md 2.4: full_ones gives W. -/
theorem test_trailingOnes :
    delivered (step (one 0x0034 0xFFFF 0 0)) = okFor7 0 16 := by decide

/-- 95_test_vectors.md S5. -/
theorem test_add : delivered (step (one 0x0018 250 10 0)) = okFor7 4 0 := by decide

/-- 95_test_vectors.md 2.5: the operand order matters. -/
theorem test_subtract : delivered (step (one 0x0019 3 5 0)) = okFor7 0xFE 0 := by decide

/-- 95_test_vectors.md 2.5. -/
theorem test_multiply :
    delivered (step (one 0x007A 0x00000000FFFFFFFF 0x00000000FFFFFFFF 0)) = okFor7 0xFFFFFFFE00000001 0 := by decide

/-- 95_test_vectors.md 2.5: i8 -6/2, the bit-pattern reading. -/
theorem test_divide : delivered (step (one 0x011B 0xFA 0x02 0)) = okFor7 0x7D 0 := by decide

/-- 95_test_vectors.md S6; b is the low W bits of B, so 0x100 is a zero divisor at W = 8 (30_encoding.md R68). -/
theorem test_divide_byZero : delivered (step (one 0x001B 10 0x100 0)) = divzFor7 := by decide

/-- 95_test_vectors.md 2.5: i8, 250 mod 4. -/
theorem test_modulo : delivered (step (one 0x011C 0xFA 0x04 0)) = okFor7 2 0 := by decide

/-- 95_test_vectors.md 2.5. -/
theorem test_modulo_byZero : delivered (step (one 0x001C 5 0 0)) = divzFor7 := by decide

/-! ### Reference algorithms: the traces of 95_test_vectors.md 2.6 -/

theorem test_rippleAdd_trace : rippleAdd 0 [0xFF, 0x00] [0x01, 0x00] = [0x00, 0x01] := by decide

theorem test_multiplyRows_trace : multiplyRows [0x78, 0x56] [0x34, 0x12] [0x00, 0x00] = [0x60, 0x00] := by decide

theorem test_restoringLoop_trace : restoringLoop 200#8 7#8 8 (0, 0) = (28, 4) := by decide

theorem test_leftShiftBytes_trace : leftShiftBytes (n := 2) 0x8001#16 9 = 0x0200#16 := by decide

/-! ### The machine -/

/-- Two callers, the first with the reserved word `cmd`, the second with an add of 250 and 10. -/
def reservedFirst (cmd : Command) : State :=
  { requests := [{ caller := 3, patience := 0, request := { cmd := cmd, a := 0, b := 0, amt := 0 } },
      { caller := 7, patience := 0, request := { cmd := 0x0018, a := 250, b := 10, amt := 0 } }]
    response := none
    refused := []
    draws := 0 }

/-- 95_test_vectors.md 2.7: a reserved word is refused and has no response. -/
theorem test_step_refuses_reserved :
    (∃ s', step (reservedFirst 0x001F) = .next s' ∧ s'.response = none ∧ s'.refused = [⟨3, .opUnassigned⟩]) ∧
    (∃ s', step (reservedFirst 0x00E4) = .next s' ∧ s'.response = none ∧ s'.refused = [⟨3, .widReserved⟩]) ∧
    ∃ s', step (reservedFirst 0x8018) = .next s' ∧ s'.response = none ∧ s'.refused = [⟨3, .rsvNonzero⟩] :=
  ⟨⟨_, rfl, rfl, rfl⟩, ⟨_, rfl, rfl, rfl⟩, ⟨_, rfl, rfl, rfl⟩⟩

/-- 20_memory.md R49: the caller behind a refused request gets the response of 95_test_vectors.md S5. -/
theorem test_refusal_touches_no_other : delivered (run 2 (reservedFirst 0x001F)) = okFor7 4 0 := by decide

/-- No transaction that has lost its patience is overtaken, and those that are lose some (log entry 15). -/
theorem test_enter :
    (enter 0 ⟨3, 9, ⟨0, 0, 0, 0⟩⟩ [⟨1, 0, ⟨0, 0, 0, 0⟩⟩, ⟨2, 5, ⟨0, 0, 0, 0⟩⟩]).map
      (fun t => (t.caller, t.patience)) = [(1, 0), (3, 9), (2, 4)] := rfl

/-- 95_test_vectors.md 2.7: the native width, at the legal widths that a parameter can take: `ebm_left_shift.usize 1,
NATIVE_W` is 0 at every one. -/
theorem test_leftShift_native (W : Nat) : leftShift (1#W) W = 0#W := by simp [leftShift]

/-- The first step after reset runs the word loaded, with all-zero operands (log entry 6). -/
theorem test_withFetchWord :
    step (State.reset.withFetchWord 16 0x0118) =
      .next { requests := [], response := some { caller := 0, response := .ok 0 0 }, refused := [], draws := 1 } := rfl

/-- The same caller after a refusal (R194): its second word leaves it one transaction outstanding. -/
theorem test_refused_caller_presents_again :
    ∃ s, step (State.reset.withFetchWord 16 0x001F) = .next s ∧ s.callers = [0] ∧
      (s.withFetchWord 16 0x0018).callers = [0] := ⟨_, rfl, rfl, rfl⟩

theorem test_status_of_divz : Response.status (.err .divisionByZero) = 0b01#2 := rfl

/-- 30_encoding.md R73: `ebm_add.u8 250, 10` is CMD 0x0018; literals in three bases. -/
theorem test_assemble_add :
    assemble "ebm_add.u8 250, 0b1010" = some { cmd := 0x0018, a := 250, b := 10, amt := 0 } := by decide

/-- 40_byteview.md R81: `[0x34, 0x12]` on lanes 0 and 1 of A. -/
theorem test_assemble_fromBytes :
    assemble "ebm_from_bytes.u16 [0x34, 0x12]" = some { cmd := 0x0021, a := 0x1234, b := 0, amt := 0 } := by decide

/-- 30_encoding.md R70: an amount of 2^32 has no command. -/
theorem test_assemble_wide_amount : assemble "ebm_left_shift.u8 0x1, 4_294_967_296" = none := by decide

/-! ### Witnesses: states and operands that meet the hypotheses of the statements -/

/-- Two callers with a transaction in flight each, a zero divisor among them. -/
def two : State :=
  { requests := [{ caller := 1, patience := 0, request := { cmd := 0x001B, a := 10, b := 0, amt := 0 } },
      { caller := 2, patience := 1, request := { cmd := 0x010A, a := 0x81, b := 0, amt := 9 } }]
    response := some { caller := 1, response := .ok 0 128 }
    refused := [{ caller := 4, why := .widReserved }]
    draws := 5 }

/-- The same transactions in the other order. -/
def owt : State := { two with requests := two.requests.reverse }

/-- For every statement about an instruction or a step with a transaction in flight, at both kinds of divisor, whose word
decodes, and for DecodeIsTheInverseOfEncode and DecoderAdmitsExactlyWellFormedWords. -/
theorem witness_requestInFlight :
    (∃ t rest, two.requests = t :: rest ∧ decode t.request.cmd = .ok (.ebmDivide .w8 .unsigned) ∧
      t.request.b.toNat % 2 ^ Width.bits .w8 = 0) ∧
    ∃ t rest, (one 0x011C 0xFA 0x04 0).requests = t :: rest ∧ decode t.request.cmd = .ok (.ebmModulo .w8 .signed) ∧
      t.request.b.toNat % 2 ^ Width.bits .w8 ≠ 0 :=
  ⟨⟨_, _, rfl, rfl, rfl⟩, ⟨_, _, rfl, rfl, by decide⟩⟩

/-- For ExactlyReservedWordsAreRefused: a reserved word, by each of its three grounds, and an admitted one. -/
theorem witness_reserved :
    (∃ t rest, (one 0x0204 0 0 0).requests = t :: rest ∧ t.request.cmd.toNat / 512 ≠ 0) ∧
    (∃ t rest, (one 0x001F 0 0 0).requests = t :: rest ∧ t.request.cmd.toNat % 32 = 0x1F) ∧
    (∃ t rest, (one 0x00C4 0 0 0).requests = t :: rest ∧ t.request.cmd.toNat / 32 % 8 = 6) :=
  ⟨⟨_, _, rfl, by decide⟩, ⟨_, _, rfl, by decide⟩, ⟨_, _, rfl, by decide⟩⟩

/-- For NothingInFlightNothingAnswered. -/
theorem witness_nothingInFlight : State.reset.requests = [] := rfl

/-- For StepKeepsTheInvariant and PresentingARequestKeepsTheInvariant, with a caller that may present, two that may not, and of
those one that may after it gives up: the invariant holds, a step answers, and the response on the ports is at the top of the
range of CNT. -/
theorem witness_invariant :
    two.Inv ∧ (∃ s', step two = .next s') ∧ 1 ∈ two.callers ∧ 3 ∉ two.callers ∧
    4 ∈ two.callers ∧ 4 ∉ two.requests.map (·.caller) :=
  ⟨⟨by decide, by rintro d ⟨rfl⟩; decide⟩, ⟨_, rfl⟩, by decide, by decide, by decide, by decide⟩

/-- For EachConcurrentTransactionGetsItsOwnExec and InterleavingChangesNoResponse: a state with admitted words alone, with a
second transaction, in two orders; and one with a reserved word before an admitted one. -/
theorem witness_concurrent :
    (two.Conforming ∧ two.requests.Perm owt.requests ∧
      ∃ t, two.requests[1]? = some t ∧ t ∈ two.requests ∧ t.request.cmd.wellFormed = true) ∧
    (∃ t, (reservedFirst 0x001F).requests[0]? = some t ∧ t.request.cmd.wellFormed = false) ∧
    ∃ t, (reservedFirst 0x001F).requests[1]? = some t ∧ t.request.cmd.wellFormed = true :=
  ⟨⟨by unfold State.Conforming; decide, (List.reverse_perm _).symm, _, rfl, by decide, by decide⟩,
    ⟨_, rfl, by decide⟩, ⟨_, rfl, by decide⟩⟩

/-- For EveryAdmittedTransactionIsAnsweredInTime: caller 2, at place 1 with patience 1, is overtaken once, by a reserved word
whose caller gives up, and not a second time, and is answered at the third step, the last its bound allows. -/
theorem witness_answeredInTime :
    ∃ (t : Transaction) (events : List Event), two.requests[1]? = some t ∧ t.request.cmd.wellFormed = true ∧
      Event.assertReset ∉ events ∧ 1 + t.patience + 1 ≤ events.count .step ∧
      delivered (runEvents events two) = some { caller := 2, response := .ok 3 0 } :=
  ⟨_, [.present 0 ⟨5, 7, ⟨0x001F, 0, 0, 0⟩⟩, .step, .step, .giveUp 5, .present 0 ⟨5, 7, ⟨0x0018, 1, 1, 0⟩⟩, .step],
    rfl, by decide, by decide, by decide, by decide⟩

/-- For ResponseDependsOnTheRequestAlone and ResetAbandonsTransactionsInFlight: a request with an admitted word. -/
theorem witness_admittedRequest :
    ∃ t : Transaction, t ∈ two.requests ∧ t.request.cmd.wellFormed = true :=
  ⟨_, List.mem_cons_self .., by decide⟩

/-- For UnreadFieldsAreIgnored: two different requests that agree in what a rotate reads, and two that agree in what an add
reads, bits above W apart; a counting command at each end of its codes gives an OK response, and so does one beside them. -/
theorem witness_unreadFields :
    (∃ r r' : Request, r ≠ r' ∧ decode r.cmd = .ok (.ebmRotateLeft .w8 .signed) ∧
      decode r'.cmd = .ok (.ebmRotateLeft .w8 .signed) ∧
      r.a.toNat % 2 ^ Width.bits .w8 = r'.a.toNat % 2 ^ Width.bits .w8 ∧ r.amt = r'.amt) ∧
    (∃ r r' : Request, r ≠ r' ∧ decode r.cmd = .ok (.ebmAdd .w8 .unsigned) ∧ decode r'.cmd = .ok (.ebmAdd .w8 .unsigned) ∧
      r.a.toNat % 2 ^ Width.bits .w8 = r'.a.toNat % 2 ^ Width.bits .w8 ∧
      r.b.toNat % 2 ^ Width.bits .w8 = r'.b.toNat % 2 ^ Width.bits .w8) ∧
    transact { cmd := 0x0010, a := 0xFF, b := 0, amt := 0 } = some (.ok 0 8) ∧
    transact { cmd := 0x0014, a := 0xFF, b := 0, amt := 0 } = some (.ok 0 8) ∧
    transact { cmd := 0x000B, a := 0xFF, b := 0, amt := 0 } = some (.ok 0xFF 0) ∧
    transact { cmd := 0x0018, a := 0xFF, b := 0, amt := 0 } = some (.ok 0xFF 0) :=
  ⟨⟨{ cmd := 0x010A, a := 0x81, b := 0, amt := 9 }, { cmd := 0x010A, a := 0xFF81, b := 3, amt := 9 },
      by decide, rfl, rfl, by decide, rfl⟩,
    ⟨{ cmd := 0x0018, a := 250, b := 10, amt := 0 }, { cmd := 0x0018, a := 0x1FA, b := 0xF0A, amt := 5 },
      by decide, rfl, rfl, by decide, by decide⟩, by decide, by decide, by decide, by decide⟩

/-- For PortsCarryTheResponse: an OK response, and an error, on the ports. -/
theorem witness_ports :
    (∃ c r, two.response = some { caller := c, response := r } ∧ r = .ok 0 128) ∧
    ∃ s', step two = .next s' ∧ s'.response = some { caller := 1, response := .err .divisionByZero } :=
  ⟨⟨_, _, rfl, rfl⟩, ⟨_, rfl, rfl⟩⟩

/-- For RotatesAreTheOrOfTwoShifts, ShiftAndRotateLaws, QuotientAndRemainderRebuildTheDividend, ArithmeticLaws and
SignedArithmeticReusesTheUnsignedPatterns: a positive width, an amount at the top of its range, a nonzero divisor. -/
theorem witness_units : 0 < 8 ∧ (0 < 8 ∧ 8 ≤ 8) ∧ (7#8).toNat ≠ 0 := by decide

/-- For AssembledOperandsAreTheLiteralsWritten: each of the four operand forms, with operands at the top of their ranges. -/
theorem witness_assembled :
    (∃ r, requestOf (.ebmNot .w8 .signed) [255] = some r) ∧
    (∃ r, requestOf (.ebmAdd .w8 .unsigned) [255, 255] = some r) ∧
    (∃ r, requestOf (.ebmRotateRight .w8 .unsigned) [255, 4294967295] = some r) ∧
    ∃ r, requestOf (.ebmFromBytes .w16 .unsigned) [255, 255] = some r :=
  ⟨⟨_, rfl⟩, ⟨_, rfl⟩, ⟨_, rfl⟩, ⟨_, rfl⟩⟩

end Sys2Proof.Tests
end

/-! SUPPORT. The decoder by the fields of the word: each field as a number, the words it admits, and what the signedness
tag changes (30_encoding.md R60 to R66, R71). -/

namespace Sys2Proof

theorem rsvField_eq_zero_iff (cmd : Command) : rsvField cmd = 0#7 ↔ cmd.toNat / 512 = 0 := by
  have hlt : cmd.toNat < 65536 := cmd.isLt
  simp only [rsvField, ← BitVec.toNat_inj, BitVec.extractLsb'_toNat, BitVec.toNat_ofNat, Nat.shiftRight_eq_div_pow]
  omega

@[simp] theorem opField_toNat (cmd : Command) : (opField cmd).toNat = cmd.toNat % 32 := by
  simp [opField, BitVec.extractLsb'_toNat]

@[simp] theorem widField_toNat (cmd : Command) : (widField cmd).toNat = cmd.toNat / 32 % 8 := by
  simp [widField, BitVec.extractLsb'_toNat, Nat.shiftRight_eq_div_pow]

/-- The operation table has an entry for every code but the twelve that 30_encoding.md R65 lists. -/
theorem opOfCode_isSome (op : BitVec 5) :
    (opOfCode op).isSome =
      !([0x02, 0x03, 0x0C, 0x0D, 0x0E, 0x0F, 0x15, 0x16, 0x17, 0x1D, 0x1E, 0x1F].contains op.toNat) := by
  revert op
  decide

/-- The width table has an entry for every code but 110 and 111 (30_encoding.md R66). -/
theorem widthOfCode_isSome (wid : BitVec 3) : (widthOfCode wid).isSome = !([6, 7].contains wid.toNat) := by
  revert wid
  decide

/-- What `decode` accepts, and the instruction it then gives: RSV zero and an entry in each of the two tables. -/
theorem decode_eq_ok_iff {cmd : Command} {i : Instr} :
    decode cmd = .ok i ↔
      rsvField cmd = 0#7 ∧ ∃ op w, opOfCode (opField cmd) = some op ∧ widthOfCode (widField cmd) = some w ∧
        op w (signOfBit (signField cmd)) = i := by
  by_cases hr : rsvField cmd = 0#7
  · cases hop : opOfCode (opField cmd) with
    | none => simp [decode, hr, hop]
    | some op => cases hw : widthOfCode (widField cmd) <;> simp [decode, hr, hop, hw]
  · simp [decode, hr]

/-- The decoder admits exactly the words that 30_encoding.md R65 does not reserve. -/
theorem decode_ok_iff_wellFormed (cmd : Command) : (∃ i, decode cmd = .ok i) ↔ cmd.wellFormed = true := by
  have hr : rsvField cmd = 0#7 ↔ cmd.rsvClear = true := by simp [rsvField_eq_zero_iff, Command.rsvClear]
  have hop : (opOfCode (opField cmd)).isSome = cmd.opAssigned := by rw [opOfCode_isSome, opField_toNat]; rfl
  have hw : (widthOfCode (widField cmd)).isSome = cmd.widAssigned := by rw [widthOfCode_isSome, widField_toNat]; rfl
  simp only [Command.wellFormed, Bool.and_eq_true, ← hr, ← hop, ← hw, Option.isSome_iff_exists, decode_eq_ok_iff]
  constructor
  · rintro ⟨i, hr, op, w, hop, hw, -⟩
    exact ⟨⟨hr, op, hop⟩, w, hw⟩
  · rintro ⟨⟨hr, op, hop⟩, w, hw⟩
    exact ⟨_, hr, op, w, hop, hw, rfl⟩

/-- The three grounds of 30_encoding.md R65 on which a word is reserved. -/
theorem wellFormed_eq_false_iff (cmd : Command) :
    cmd.wellFormed = false ↔
      cmd.toNat / 512 ≠ 0 ∨
        cmd.toNat % 32 ∈ [0x02, 0x03, 0x0C, 0x0D, 0x0E, 0x0F, 0x15, 0x16, 0x17, 0x1D, 0x1E, 0x1F] ∨
        cmd.toNat / 32 % 8 ∈ [6, 7] := by
  simp only [Command.wellFormed, Command.rsvClear, Command.opAssigned, Command.widAssigned, Bool.and_eq_false_iff,
    beq_eq_false_iff_ne, Bool.not_eq_false', List.contains_iff_mem, or_assoc]

/-- A word that is not admitted is rejected for one of the reasons of 30_encoding.md R71. -/
theorem decode_error_of_not_wellFormed {cmd : Command} (h : cmd.wellFormed = false) :
    ∃ why, decode cmd = .error why := by
  cases hd : decode cmd with
  | error why => exact ⟨why, rfl⟩
  | ok i => simp [(decode_ok_iff_wellFormed cmd).1 ⟨i, hd⟩] at h

/-! Flipping the signedness tag, CMD XOR 0x0100 (30_encoding.md R63). -/

@[simp] theorem rsvField_xor_tag (cmd : Command) : rsvField (cmd ^^^ 0x0100#16) = rsvField cmd := by
  simp [rsvField, BitVec.extractLsb'_xor]

@[simp] theorem opField_xor_tag (cmd : Command) : opField (cmd ^^^ 0x0100#16) = opField cmd := by
  simp [opField, BitVec.extractLsb'_xor]

@[simp] theorem widField_xor_tag (cmd : Command) : widField (cmd ^^^ 0x0100#16) = widField cmd := by
  simp [widField, BitVec.extractLsb'_xor]

end Sys2Proof

namespace Sys2Proof.Machine

/-! `step` and `transact` on a reserved and on an admitted word. -/

/-- A step runs the instruction that the first word in flight decodes to (30_encoding.md R71). -/
theorem step_admitted {s : State} {t : Transaction} {rest : List Transaction} {i : Instr}
    (h : s.requests = t :: rest) (hd : decode t.request.cmd = .ok i) : step s = exec i s := by
  simp [step, State.nextCommand_cons h, hd]

/-- The state in which `transact` runs a request: after reset, with that request alone in flight. -/
def Request.alone (r : Request) : State :=
  { State.reset with requests := [{ caller := 0, patience := 0, request := r }] }

@[simp] theorem Request.alone_requests (r : Request) :
    r.alone.requests = [{ caller := 0, patience := 0, request := r }] := rfl
@[simp] theorem Request.alone_refused (r : Request) : r.alone.refused = [] := rfl
@[simp] theorem Request.alone_draws (r : Request) : r.alone.draws = 0 := rfl

/-- `transact` is the response that a step from `Request.alone` leaves on the ports. -/
theorem transact_of_step_alone {r : Request} {s : State} (h : step r.alone = .next s) :
    transact r = s.response.map (·.response) := by
  have hstep : step { State.reset with requests := [{ caller := 0, patience := 0, request := r }] } = .next s := h
  simp only [transact, hstep]

/-- `Exec` of a request with a reserved word is `Refused` (30_encoding.md R65). -/
theorem transact_reserved {r : Request} {why : Reserved} (hd : decode r.cmd = .error why) : transact r = none :=
  transact_of_step_alone ((step_reserved r.alone_requests hd).trans (refuse_cons why r.alone_requests))

/-- `Exec` of a request with an admitted word is the response its instruction's meaning gives. -/
theorem transact_admitted {r : Request} {i : Instr} {op : Request → Response} (hd : decode r.cmd = .ok i)
    (hop : ∀ s, exec i s = answer op s) : transact r = some (op r) :=
  transact_of_step_alone
    ((step_admitted r.alone_requests hd).trans ((hop _).trans (answer_cons op r.alone_requests)))

/-! No meaning reads the signedness tag, or any other part of the command word. -/

/-- Two instructions that differ in the signedness tag alone have one meaning (30_encoding.md R63). -/
theorem exec_ignores_tag {code : BitVec 5} {op : Width → Signedness → Instr} (h : opOfCode code = some op)
    (w : Width) (sg sg' : Signedness) (s : State) : exec (op w sg) s = exec (op w sg') s := by
  unfold opOfCode at h
  split at h <;> cases h <;> rfl

/-- With the tag flipped, an admitted word stays admitted, and its meaning stays the same. -/
theorem decode_xor_tag {cmd : Command} {i : Instr} (h : decode cmd = .ok i) :
    ∃ j, decode (cmd ^^^ 0x0100#16) = .ok j ∧ ∀ s, exec j s = exec i s := by
  obtain ⟨hr, op, w, hop, hw, rfl⟩ := decode_eq_ok_iff.1 h
  exact ⟨_, decode_eq_ok_iff.2 ⟨by simpa, op, w, by simpa, by simpa, rfl⟩, exec_ignores_tag hop w _ _⟩

/-- The meanings take the operands alone from the request: `step` has read the command word. -/
theorem response_ignores_cmd {i : Instr} {op : Request → Response} (hop : ∀ s, exec i s = answer op s) (r : Request)
    (cmd : Command) : op { r with cmd := cmd } = op r := by
  have hexec : exec i { r with cmd := cmd : Request }.alone = exec i r.alone := by cases i <;> rfl
  simpa [hop, answer_cons op (Request.alone_requests _)] using hexec

/-- Settles O4: a reserved word takes the branch of `step` that refuses, an admitted one the branch that executes, and
`transact` is the same step on the request alone. -/
theorem exactlyReservedWordsAreRefused : Obligations.ExactlyReservedWordsAreRefused := by
  intro s t rest hreq
  split
  next hreserved =>
    obtain ⟨why, hd⟩ := decode_error_of_not_wellFormed ((wellFormed_eq_false_iff _).2 hreserved)
    exact ⟨transact_reserved hd, why, hd, by rw [step_reserved hreq hd, refuse_cons why hreq]⟩
  next hadmitted =>
    rw [← wellFormed_eq_false_iff, Bool.not_eq_false] at hadmitted
    obtain ⟨i, hd⟩ := (decode_ok_iff_wellFormed _).2 hadmitted
    obtain ⟨op, hop⟩ := exec_is_answer i
    exact ⟨op t.request, transact_admitted hd hop, by rw [step_admitted hreq hd, hop, answer_cons op hreq]⟩

/-- Settles O50: the flipped word decodes to an instruction with the same meaning, which reads the operands alone; and
flipping twice gives the word back, so a reserved word stays reserved. -/
theorem signednessTagChangesNoResponse : Obligations.SignednessTagChangesNoResponse := by
  intro r
  cases hd : decode r.cmd with
  | ok i =>
    obtain ⟨op, hop⟩ := exec_is_answer i
    obtain ⟨j, hj, hexec⟩ := decode_xor_tag hd
    have hflip : transact { r with cmd := r.cmd ^^^ 0x0100#16 } = some (op { r with cmd := r.cmd ^^^ 0x0100#16 }) :=
      transact_admitted hj fun s => (hexec s).trans (hop s)
    rw [hflip, response_ignores_cmd hop, transact_admitted hd hop]
  | error why =>
    cases hflip : decode (r.cmd ^^^ 0x0100#16) with
    | error why' =>
      rw [transact_reserved hd, transact_reserved (r := { r with cmd := r.cmd ^^^ 0x0100#16 }) hflip]
    | ok j =>
      obtain ⟨i, hi, -⟩ := decode_xor_tag hflip
      simp [hd] at hi

end Sys2Proof.Machine

/-! SUPPORT. The word an operation's code, a width and a tag assemble to decodes to that operation (30_encoding.md R60 to
R63), and the two Byte View commands place lanes 0..n-1 of A on RES (40_byteview.md R80, R81; 30_encoding.md R69). -/

namespace Sys2Proof

section
variable (rsv : BitVec 7) (sign : BitVec 1) (wid : BitVec 3) (op : BitVec 5)

@[simp] theorem rsvField_append : rsvField (rsv ++ sign ++ wid ++ op) = rsv :=
  calc (rsv ++ sign ++ wid ++ op).extractLsb' 9 7
    _ = (rsv ++ sign ++ wid).extractLsb' 4 7 := BitVec.extractLsb'_append_eq_of_le (by decide)
    _ = (rsv ++ sign).extractLsb' 1 7 := BitVec.extractLsb'_append_eq_of_le (by decide)
    _ = rsv := BitVec.extractLsb'_append_eq_left

@[simp] theorem signField_append : signField (rsv ++ sign ++ wid ++ op) = sign[0] :=
  calc (rsv ++ sign ++ wid ++ op).getLsbD 8
    _ = (rsv ++ sign ++ wid).getLsbD 3 := BitVec.getLsbD_append
    _ = (rsv ++ sign).getLsbD 0 := BitVec.getLsbD_append
    _ = sign[0] := BitVec.getLsbD_append

@[simp] theorem widField_append : widField (rsv ++ sign ++ wid ++ op) = wid :=
  calc (rsv ++ sign ++ wid ++ op).extractLsb' 5 3
    _ = (rsv ++ sign ++ wid).extractLsb' 0 3 := BitVec.extractLsb'_append_eq_of_le (by decide)
    _ = wid := BitVec.extractLsb'_append_eq_right

@[simp] theorem opField_append : opField (rsv ++ sign ++ wid ++ op) = op :=
  BitVec.extractLsb'_append_eq_right

end

@[simp] theorem signOfBit_code (sg : Signedness) : signOfBit sg.code[0] = sg := by cases sg <;> rfl

@[simp] theorem widthOfCode_code (w : Width) : widthOfCode w.code = some w := by cases w <;> rfl

/-- The word assembled from the code of an operation, a width and a tag decodes to the operation at both. -/
theorem decode_assembled {code : BitVec 5} {op : Width → Signedness → Instr} (h : opOfCode code = some op)
    (w : Width) (sg : Signedness) : decode (0#7 ++ sg.code ++ w.code ++ code) = .ok (op w sg) :=
  decode_eq_ok_iff.2 ⟨by simp, op, w, by simpa, by simp, by simp⟩

end Sys2Proof

namespace Sys2Proof.Machine

/-- Lane i of the bytes placed on a bus is byte i, and zero where there is none (30_encoding.md R69). -/
theorem lane_concatBytes (bs : List Byte) {i : Nat} (hi : i < 16) : lane (concatBytes 128 bs) i = bs.getD i 0#8 := by
  ext j hj
  have hbit : 8 * i + j < 128 := by omega
  have hdiv : (8 * i + j) / 8 = i := by omega
  have hmod : (8 * i + j) % 8 = j := by omega
  rw [lane_getElem, concatBytes_getLsbD, hdiv, hmod]
  simp [hbit, hj]

/-- A pattern wide enough for its bytes is, in another width, the same bytes placed there. -/
theorem concatBytes_setWidth {W : Nat} (V : Nat) {bs : List Byte} (h : 8 * bs.length ≤ W) :
    (concatBytes W bs).setWidth V = concatBytes V bs := by
  refine BitVec.eq_of_getLsbD_eq fun j hV => ?_
  rw [BitVec.getLsbD_setWidth, concatBytes_getLsbD, concatBytes_getLsbD]
  by_cases hW : j < W
  · simp [hW]
  · rw [List.getD_eq_default _ _ (by omega)]
    simp

/-- The value of a Byte View is placed as its bytes are. -/
theorem valueResponse_fromBytes {n : Nat} (bs : Bytes n) : valueResponse (fromBytes bs) = bytesResponse bs := by
  rw [valueResponse, fromBytes, concatBytes_setWidth 128 (by simp), bytesResponse]

/-- Byte i of the first operand is lane i of A (20_memory.md R41). -/
theorem toBytes_valueA (r : Request) (w : Width) : toBytes (n := w.bytes) (r.valueA w) = r.lanesA w.bytes := by
  ext i hi j hj
  have hbit : 8 * i + j < w.bits := by unfold Width.bits; omega
  simp [hbit]

/-- ebm_to_bytes places the lanes of A that its width covers. -/
theorem exec_ebmToBytes_lanes (w : Width) (sg : Signedness) (s : State) :
    exec (.ebmToBytes w sg) s = answer (fun r => bytesResponse (r.lanesA w.bytes)) s := by
  simp only [exec_ebmToBytes, toBytes_valueA]

/-- ebm_from_bytes places the lanes of A that its width covers. -/
theorem exec_ebmFromBytes_lanes (w : Width) (sg : Signedness) (s : State) :
    exec (.ebmFromBytes w sg) s = answer (fun r => bytesResponse (r.lanesA w.bytes)) s := by
  simp only [exec_ebmFromBytes, valueResponse_fromBytes]

/-- Placed on RES, the first n lanes of A stand in their own lanes, with zeros above. -/
theorem lane_concatBytes_lanesA (r : Request) (n : Nat) {i : Nat} (hi : i < 16) :
    lane (concatBytes 128 (r.lanesA n).toList) i = if i < n then lane r.a i else 0#8 := by
  rw [lane_concatBytes _ hi]
  split
  next hn => rw [List.getD_eq_getElem _ _ (by simpa), Vector.getElem_toList, Request.lanesA_getElem]
  next hn => exact List.getD_eq_default _ _ (by simpa using hn)

/-- Settles O9: ebm_to_bytes places lanes 0..n-1 of A, which are the bytes of a. -/
theorem toBytesPutsByteIInLaneI : Obligations.ToBytesPutsByteIInLaneI :=
  ⟨rfl, fun w sg => ⟨decode_assembled rfl w sg, rfl⟩, fun w sg s t _ hreq =>
    ⟨_, (exec_ebmToBytes_lanes w sg s).trans (answer_cons _ hreq),
      fun _ hi => lane_concatBytes_lanesA t.request w.bytes hi⟩⟩

/-- Settles O10: the value ebm_from_bytes forms is placed as lanes 0..n-1 of A, byte for byte. -/
theorem fromBytesTakesByteIFromLaneI : Obligations.FromBytesTakesByteIFromLaneI :=
  ⟨rfl, fun w sg => ⟨decode_assembled rfl w sg, rfl⟩, fun w sg s t _ hreq =>
    ⟨_, (exec_ebmFromBytes_lanes w sg s).trans (answer_cons _ hreq),
      fun _ hi => lane_concatBytes_lanesA t.request w.bytes hi⟩⟩

end Sys2Proof.Machine

/-! SUPPORT. The logic commands bit by bit: a value placed on RES keeps its bits (30_encoding.md R69), and cutting the
operands to W bits distributes over each connective (41_logic.md R90 to R93; 30_encoding.md R68). -/

namespace Sys2Proof.Machine

/-- A command that answers a value places it on RES bit by bit, with zeros above W and CNT zero (30_encoding.md R69). -/
theorem exec_value_bits {i : Instr} {W : Nat} {value : Request → BitVec W}
    (hexec : ∀ s, exec i s = answer (fun r => valueResponse (value r)) s)
    {s : State} {t : Transaction} {rest : List Transaction} (hreq : s.requests = t :: rest) {bit : Nat → Bool}
    (hbit : ∀ j, (value t.request).getLsbD j = bit j) :
    ∃ res : Bus, exec i s = .next
      { requests := rest
        response := some { caller := t.caller, response := .ok res 0#8 }
        refused := s.refused
        draws := s.draws + 1 } ∧
      ∀ j, j < 128 → res.getLsbD j = bit j := by
  refine ⟨(value t.request).setWidth 128, (hexec s).trans (answer_cons _ hreq), fun j hj => ?_⟩
  rw [BitVec.getLsbD_setWidth, decide_eq_true hj, Bool.true_and, hbit]

section
variable (r : Request) (w : Width) (i : Nat)

theorem valueA_and_valueB_getLsbD :
    (r.valueA w &&& r.valueB w).getLsbD i = (decide (i < w.bits) && (r.a.getLsbD i && r.b.getLsbD i)) := by
  rw [BitVec.getLsbD_and, Request.valueA_getLsbD, Request.valueB_getLsbD, Bool.and_assoc, Bool.and_left_comm,
    Bool.and_self_left, Bool.and_left_comm]

theorem valueA_or_valueB_getLsbD :
    (r.valueA w ||| r.valueB w).getLsbD i = (decide (i < w.bits) && (r.a.getLsbD i || r.b.getLsbD i)) := by
  rw [BitVec.getLsbD_or, Request.valueA_getLsbD, Request.valueB_getLsbD, Bool.and_or_distrib_left]

theorem valueA_xor_valueB_getLsbD :
    (r.valueA w ^^^ r.valueB w).getLsbD i = (decide (i < w.bits) && (r.a.getLsbD i ^^ r.b.getLsbD i)) := by
  rw [BitVec.getLsbD_xor, Request.valueA_getLsbD, Request.valueB_getLsbD, Bool.and_xor_distrib_left]

/-- The complement is taken within W bits, so it sets no bit above them. -/
theorem not_valueA_getLsbD :
    (~~~ r.valueA w).getLsbD i = (decide (i < w.bits) && !r.a.getLsbD i) := by
  rw [BitVec.getLsbD_not, Request.valueA_getLsbD]
  by_cases h : i < w.bits
  · simp [h]
  · simp [h]

end

/-- Settles O11: cutting both operands to W bits distributes over AND. -/
theorem andActsOnEachBit : Obligations.AndActsOnEachBit :=
  ⟨rfl, fun w sg => ⟨decode_assembled rfl w sg, rfl⟩, fun w sg _ t _ hreq =>
    exec_value_bits (exec_ebmAnd w sg) hreq (valueA_and_valueB_getLsbD t.request w)⟩

/-- Settles O12: cutting both operands to W bits distributes over OR. -/
theorem orActsOnEachBit : Obligations.OrActsOnEachBit :=
  ⟨rfl, fun w sg => ⟨decode_assembled rfl w sg, rfl⟩, fun w sg _ t _ hreq =>
    exec_value_bits (exec_ebmOr w sg) hreq (valueA_or_valueB_getLsbD t.request w)⟩

/-- Settles O13: cutting both operands to W bits distributes over XOR. -/
theorem xorActsOnEachBit : Obligations.XorActsOnEachBit :=
  ⟨rfl, fun w sg => ⟨decode_assembled rfl w sg, rfl⟩, fun w sg _ t _ hreq =>
    exec_value_bits (exec_ebmXor w sg) hreq (valueA_xor_valueB_getLsbD t.request w)⟩

/-- Settles O14: the complement is of the W bits of a alone, so the bits of RES above W stay zero. -/
theorem notActsOnEachBit : Obligations.NotActsOnEachBit :=
  ⟨rfl, fun w sg => ⟨decode_assembled rfl w sg, rfl⟩, fun w sg _ t _ hreq =>
    exec_value_bits (exec_ebmNot w sg) hreq (not_valueA_getLsbD t.request w)⟩

end Sys2Proof.Machine

/-! SUPPORT. The operations of the Shift/Rotate Unit are the library's shifts and rotates of bit vectors, at every width and
amount (42_shift.md R101 to R104); which bit of a comes where, and EML's laws of them (R107). -/

namespace Sys2Proof.Machine

section
variable {W : Nat} (a : BitVec W) (k : Nat)

@[simp] theorem leftShift_eq_shiftLeft : leftShift a k = a <<< k := by
  unfold leftShift
  split
  next hk => exact (BitVec.shiftLeft_eq_zero hk).symm
  next => rfl

@[simp] theorem rightShift_eq_ushiftRight : rightShift a k = a >>> k := by
  unfold rightShift
  split
  next hk => exact (BitVec.ushiftRight_eq_zero hk).symm
  next => rw [← BitVec.toNat_ushiftRight, BitVec.ofNat_toNat, BitVec.setWidth_eq]

/-- Of the two parts that R103 joins, the j high bits of a stand below j and the others from j up. -/
@[simp] theorem rotateLeft_eq_bitVecRotateLeft : rotateLeft a k = a.rotateLeft k := by
  refine BitVec.eq_of_getLsbD_eq fun i hi => ?_
  rw [BitVec.getLsbD_rotateLeft]
  by_cases hj : k % W = 0
  · simp [rotateLeft, hj, hi]
  · by_cases hlow : i < k % W
    · simp [rotateLeft, hj, hi, hlow, BitVec.getLsbD_append]
    · have hfrom : i - k % W < W - k % W := by omega
      simp [rotateLeft, hj, hi, hlow, hfrom, BitVec.getLsbD_append]

/-- Of the two parts that R104 joins, the bits of a from j up stand below W - j and the j low bits above them. -/
@[simp] theorem rotateRight_eq_bitVecRotateRight : rotateRight a k = a.rotateRight k := by
  refine BitVec.eq_of_getLsbD_eq fun i hi => ?_
  rw [BitVec.getLsbD_rotateRight]
  by_cases hj : k % W = 0
  · simp [rotateRight, hj, hi]
  · by_cases hlow : i < W - k % W
    · simp [rotateRight, hj, hi, hlow, BitVec.getLsbD_append]
    · have hfrom : i - (W - k % W) < k % W := by omega
      simp [rotateRight, hj, hi, hlow, hfrom, BitVec.getLsbD_append]

variable {i : Nat}

/-- Bit i goes to bit (i + k) mod W. -/
theorem rotateLeft_getLsbD_add_mod (hi : i < W) : (rotateLeft a k).getLsbD ((i + k) % W) = a.getLsbD i := by
  have hj : k % W < W := Nat.mod_lt k (Nat.zero_lt_of_lt hi)
  rw [rotateLeft_eq_bitVecRotateLeft, BitVec.getLsbD_rotateLeft, Nat.add_mod_eq_ite, Nat.mod_eq_of_lt hi]
  by_cases hround : W ≤ i + k % W
  · have hlow : i + k % W - W < k % W := by omega
    have hfrom : W - k % W + (i + k % W - W) = i := by omega
    simp [hround, hlow, hfrom]
  · have hlt : i + k % W < W := by omega
    simp [hround, hlt]

/-- Bit i comes from bit (i + k) mod W. -/
theorem rotateRight_getLsbD (hi : i < W) : (rotateRight a k).getLsbD i = a.getLsbD ((i + k) % W) := by
  have hj : k % W < W := Nat.mod_lt k (Nat.zero_lt_of_lt hi)
  rw [rotateRight_eq_bitVecRotateRight, BitVec.getLsbD_rotateRight, Nat.add_mod_eq_ite, Nat.mod_eq_of_lt hi]
  by_cases hround : W ≤ i + k % W
  · have hhigh : ¬ i < W - k % W := by omega
    have hfrom : i - (W - k % W) = i + k % W - W := by omega
    simp [hround, hhigh, hfrom, hi]
  · have hlow : i < W - k % W := by omega
    simp [hround, hlow, Nat.add_comm]

/-- A rotate left is the rotate right by the complement amount, k mod W of 0 included: both are the OR of one pair of
opposite shifts. -/
theorem rotateLeft_eq_rotateRight : rotateLeft a k = rotateRight a (W - k % W) := by
  obtain rfl | hW := Nat.eq_zero_or_pos W
  · exact Subsingleton.elim _ _
  rw [rotateLeft_eq_bitVecRotateLeft, rotateRight_eq_bitVecRotateRight, BitVec.rotateLeft_def, BitVec.rotateRight_def]
  by_cases hj : k % W = 0
  · simp [hj, BitVec.ushiftRight_eq_zero]
  · have hlt : k % W < W := Nat.mod_lt k hW
    rw [Nat.mod_eq_of_lt (show W - k % W < W by omega), Nat.sub_sub_self hlt.le, BitVec.or_comm]

end

/-- Settles O34: amounts of shifts add, and a rotate left is a rotate right by the complement amount. -/
theorem shiftAndRotateLaws : Obligations.ShiftAndRotateLaws := by
  intro W a k
  refine ⟨by simp, by simp [BitVec.shiftLeft_eq_zero], fun hk _ => ?_, ?_, rotateLeft_eq_rotateRight a k⟩
  · calc leftShift a k
      _ = a <<< (1 + (k - 1)) := by rw [leftShift_eq_shiftLeft, Nat.add_sub_cancel' hk]
      _ = leftShift (leftShift a 1) (k - 1) := by
        rw [BitVec.shiftLeft_add, leftShift_eq_shiftLeft, leftShift_eq_shiftLeft]
  · simp [rotateLeft]

section
variable (r : Request) (w : Width) (i : Nat)

/-- No bit of A from W up comes into a left shift: each bit comes from a position no higher than its own. -/
theorem leftShift_valueA_getLsbD :
    (leftShift (r.valueA w) r.amount).getLsbD i =
      (decide (i < w.bits) && (decide (r.amt.toNat ≤ i) && r.a.getLsbD (i - r.amt.toNat))) := by
  rw [leftShift_eq_shiftLeft, BitVec.getLsbD_shiftLeft, Request.valueA_getLsbD, Request.amount]
  by_cases hi : i < w.bits
  · have hfrom : i - r.amt.toNat < w.bits := by omega
    simp [hi, hfrom, ← decide_not]
  · simp [hi]

/-- A right shift brings in no bit of A from W or above. -/
theorem rightShift_valueA_getLsbD :
    (rightShift (r.valueA w) r.amount).getLsbD i =
      (decide (i < w.bits) && (decide (i + r.amt.toNat < w.bits) && r.a.getLsbD (i + r.amt.toNat))) := by
  rw [rightShift_eq_ushiftRight, BitVec.getLsbD_ushiftRight, Request.valueA_getLsbD, Request.amount, Nat.add_comm]
  by_cases hfrom : i + r.amt.toNat < w.bits
  · have hi : i < w.bits := by omega
    simp [hi]
  · simp [hfrom]

end

/-- Settles O15: an amount of W or more leaves no bit that comes from bit 0 or above. -/
theorem leftShiftMovesBitsUp : Obligations.LeftShiftMovesBitsUp :=
  ⟨rfl, fun w sg => ⟨decode_assembled rfl w sg, rfl⟩, fun w sg _ t _ hreq =>
    exec_value_bits (exec_ebmLeftShift w sg) hreq (leftShift_valueA_getLsbD t.request w)⟩

/-- Settles O16: both tags have the one logical shift. -/
theorem rightShiftMovesBitsDown : Obligations.RightShiftMovesBitsDown :=
  ⟨rfl, fun w sg => ⟨decode_assembled rfl w sg, rfl⟩, fun w sg _ t _ hreq =>
    exec_value_bits (exec_ebmRightShift w sg) hreq (rightShift_valueA_getLsbD t.request w)⟩

/-- On RES a value that fits the bus has all its bits, and there are none beyond the bus. -/
theorem exec_value_getLsbD {i : Instr} {W : Nat} {value : Request → BitVec W} (hW : W ≤ 128)
    (hexec : ∀ s, exec i s = answer (fun r => valueResponse (value r)) s)
    {s : State} {t : Transaction} {rest : List Transaction} (hreq : s.requests = t :: rest) :
    ∃ res : Bus, exec i s = .next
      { requests := rest
        response := some { caller := t.caller, response := .ok res 0#8 }
        refused := s.refused
        draws := s.draws + 1 } ∧
      ∀ j, res.getLsbD j = (value t.request).getLsbD j := by
  obtain ⟨res, hres, hbits⟩ := exec_value_bits hexec hreq fun _ => rfl
  refine ⟨res, hres, fun j => ?_⟩
  by_cases hj : j < 128
  · exact hbits j hj
  · rw [BitVec.getLsbD_of_ge _ _ (by omega), BitVec.getLsbD_of_ge _ _ (by omega)]

/-- Settles O17: bit i of a goes to bit (i + k) mod W. -/
theorem rotateLeftMovesBitsRound : Obligations.RotateLeftMovesBitsRound := by
  refine ⟨rfl, fun w sg => ⟨decode_assembled rfl w sg, rfl⟩, fun w sg s t rest hreq => ?_⟩
  obtain ⟨res, hexec, hbits⟩ := exec_value_getLsbD w.bits_le (exec_ebmRotateLeft w sg) hreq
  refine ⟨res, hexec, fun i hi => ?_, fun i hi => (hbits i).trans (BitVec.getLsbD_of_ge _ i hi)⟩
  calc res.getLsbD ((i + t.request.amt.toNat) % w.bits)
    _ = (t.request.valueA w).getLsbD i := (hbits _).trans (rotateLeft_getLsbD_add_mod _ _ hi)
    _ = t.request.a.getLsbD i := by simp [hi]

/-- Settles O18: bit i comes from bit (i + k) mod W of a, which is below W. -/
theorem rotateRightMovesBitsRound : Obligations.RotateRightMovesBitsRound := by
  refine ⟨rfl, fun w sg => ⟨decode_assembled rfl w sg, rfl⟩, fun w sg s t rest hreq => ?_⟩
  obtain ⟨res, hexec, hbits⟩ := exec_value_getLsbD w.bits_le (exec_ebmRotateRight w sg) hreq
  refine ⟨res, hexec, fun i hi => ?_, fun i hi => (hbits i).trans (BitVec.getLsbD_of_ge _ i hi)⟩
  calc res.getLsbD i
    _ = (t.request.valueA w).getLsbD ((i + t.request.amt.toNat) % w.bits) :=
      (hbits i).trans (rotateRight_getLsbD _ _ hi)
    _ = t.request.a.getLsbD ((i + t.request.amt.toNat) % w.bits) := by simp [Nat.mod_lt _ w.bits_pos]

end Sys2Proof.Machine

/-! SUPPORT. The Counting Unit: population_count counts the one bits below W (43_count.md R120); each of the other four counts
is the length of a run of equal bits from one end (R121 to R124); a count fits CNT (R126); the laws of the counts (R127). -/

namespace Sys2Proof.Machine

theorem sum_toNat_eq_countP {α : Type} (p : α → Bool) (l : List α) : (l.map fun x => (p x).toNat).sum = l.countP p := by
  induction l with
  | nil => rfl
  | cons x l ih => cases h : p x <;> simp [h, ih, Nat.add_comm]

theorem popcount8_eq_countP (x : Byte) : popcount8 x = (List.range 8).countP x.getLsbD :=
  sum_toNat_eq_countP _ _

/-- Bits 0 to 8n - 1, counted in n groups of eight. -/
theorem sum_countP_lanes (p : Nat → Bool) (n : Nat) :
    ((List.range n).map fun i => (List.range 8).countP fun j => p (8 * i + j)).sum = (List.range (8 * n)).countP p := by
  induction n with
  | zero => rfl
  | succ n ih =>
    rw [List.range_succ (n := n), List.map_append, List.sum_append, ih, Nat.mul_succ, List.range_add,
      List.countP_append, List.countP_map, List.map_singleton, List.sum_singleton]
    rfl

theorem map_popcount8_toBytes {n : Nat} (a : BitVec (8 * n)) :
    (toBytes a).toList.map popcount8 =
      (List.range n).map fun i => (List.range 8).countP fun j => a.getLsbD (8 * i + j) := by
  refine List.ext_getElem (by simp) fun i _ _ => ?_
  simp only [List.getElem_map, Vector.getElem_toList, toBytes_getElem, List.getElem_range, popcount8_eq_countP]
  exact List.countP_congr fun j hj => by simp [List.mem_range.1 hj]

theorem populationCount_eq_countP {n : Nat} (a : BitVec (8 * n)) :
    populationCount a = (List.range (8 * n)).countP a.getLsbD := by
  rw [populationCount, map_popcount8_toBytes, sum_countP_lanes]

theorem populationCount_le {n : Nat} (a : BitVec (8 * n)) : populationCount a ≤ 8 * n := by
  calc populationCount a
    _ = (List.range (8 * n)).countP a.getLsbD := populationCount_eq_countP a
    _ ≤ (List.range (8 * n)).length := List.countP_le_length
    _ = 8 * n := List.length_range

/-- Each bit below W is one in a or in the complement of a, and not in both. -/
theorem populationCount_add_complement {n : Nat} (a : BitVec (8 * n)) :
    populationCount a + populationCount (~~~a) = 8 * n := by
  have hnot : (List.range (8 * n)).countP (~~~a).getLsbD =
      (List.range (8 * n)).countP fun i => decide ¬ a.getLsbD i = true :=
    List.countP_congr fun i hi => by simp [List.mem_range.1 hi]
  rw [populationCount_eq_countP, populationCount_eq_countP, hnot, ← List.length_eq_countP_add_countP, List.length_range]

/-- Of the bits at positions 0 to m - 1, exactly the first c stand in an unbroken run of bits equal to v: the three clauses by
which 43_count.md R121 to R124 fix a count. `bit` numbers the positions from the end at which the scan begins. -/
structure IsRun (v : Bool) (m : Nat) (bit : Nat → Bool) (c : Nat) : Prop where
  le : c ≤ m
  inside : ∀ i, i < c → bit i = v
  next : c < m → bit c = !v

namespace IsRun

variable {v : Bool} {m c d : Nat} {bit bit' : Nat → Bool}

theorem of_first_ne (h : bit 0 ≠ v) : IsRun v (m + 1) bit 0 :=
  ⟨Nat.zero_le _, fun _ hi => absurd hi (Nat.not_lt_zero _), fun _ => Bool.eq_not_of_ne h⟩

/-- A first bit equal to v lengthens the run of the bits after it by one. -/
theorem of_first_eq (h : bit 0 = v) (hrest : IsRun v m (fun i => bit (i + 1)) c) : IsRun v (m + 1) bit (c + 1) where
  le := Nat.succ_le_succ hrest.le
  inside
    | 0, _ => h
    | i + 1, hi => hrest.inside i (Nat.lt_of_succ_lt_succ hi)
  next hc := hrest.next (Nat.lt_of_succ_lt_succ hc)

theorem of_all_eq (h : ∀ i, i < m → bit i = v) : IsRun v m bit m :=
  ⟨Nat.le_refl m, h, fun hm => absurd hm (Nat.lt_irrefl m)⟩

theorem congr (h : IsRun v m bit c) (hbit : ∀ i, i < m → bit' i = bit i) : IsRun v m bit' c where
  le := h.le
  inside i hi := (hbit i (Nat.lt_of_lt_of_le hi h.le)).trans (h.inside i hi)
  next hc := (hbit c hc).trans (h.next hc)

/-- A run of v is a run of the other value among the complemented bits. -/
theorem complement (h : IsRun v m bit c) (hbit : ∀ i, i < m → bit' i = !bit i) : IsRun (!v) m bit' c where
  le := h.le
  inside i hi := (hbit i (Nat.lt_of_lt_of_le hi h.le)).trans (congrArg _ (h.inside i hi))
  next hc := (hbit c hc).trans (congrArg _ (h.next hc))

/-- A run reaches no further than another: the bit that ends the other is not v. -/
theorem le_of_isRun (hc : IsRun v m bit c) (hd : IsRun v m bit d) : c ≤ d := by
  by_contra hlt
  have hdc : d < c := Nat.lt_of_not_le hlt
  have hv : v = !v := (hc.inside d hdc).symm.trans (hd.next (Nat.lt_of_lt_of_le hdc hc.le))
  exact (Bool.eq_not_self v).1 hv

/-- The three clauses fix the count. -/
theorem unique (hc : IsRun v m bit c) (hd : IsRun v m bit d) : c = d :=
  Nat.le_antisymm (hc.le_of_isRun hd) (hd.le_of_isRun hc)

end IsRun

section
variable {W : Nat} (v : Bool) (a : BitVec W)

theorem isRun_runDown (m : Nat) : IsRun v m (fun j => a.getLsbD (m - 1 - j)) (runDown v a m) := by
  induction m with
  | zero => exact .of_all_eq (by simp)
  | succ m ih =>
    rw [runDown]
    split
    next h => exact .of_first_eq h (ih.congr fun j _ => congrArg a.getLsbD (by omega))
    next h => exact .of_first_ne h

theorem isRun_runUp (m i : Nat) : IsRun v m (fun j => a.getLsbD (i + j)) (runUp v a i m) := by
  induction m generalizing i with
  | zero => exact .of_all_eq (by simp)
  | succ m ih =>
    rw [runUp]
    split
    next h => exact .of_first_eq h ((ih (i + 1)).congr fun j _ => congrArg a.getLsbD (by omega))
    next h => exact .of_first_ne h

/-- `runUp` from bit 0, with the positions written as they stand. -/
theorem isRun_runUp_zero : IsRun v W a.getLsbD (runUp v a 0 W) :=
  (isRun_runUp v a W 0).congr fun j _ => congrArg a.getLsbD (Nat.zero_add j).symm

theorem isRun_leadingZeros : IsRun false W (fun j => a.getLsbD (W - 1 - j)) (leadingZeros a) := isRun_runDown false a W

theorem isRun_trailingZeros : IsRun false W a.getLsbD (trailingZeros a) := isRun_runUp_zero false a

theorem isRun_leadingOnes : IsRun true W (fun j => a.getLsbD (W - 1 - j)) (leadingOnes a) := isRun_runDown true a W

theorem isRun_trailingOnes : IsRun true W a.getLsbD (trailingOnes a) := isRun_runUp_zero true a

theorem leadingOnes_eq_leadingZeros_not : leadingOnes a = leadingZeros (~~~a) :=
  (isRun_leadingOnes a).unique ((isRun_leadingZeros (~~~a)).complement fun j hj => by
    simp [show W - 1 - j < W by omega])

theorem trailingOnes_eq_trailingZeros_not : trailingOnes a = trailingZeros (~~~a) :=
  (isRun_trailingOnes a).unique ((isRun_trailingZeros (~~~a)).complement fun j hj => by simp [hj])

variable (W)

theorem leadingZeros_zero : leadingZeros (0#W) = W :=
  (isRun_leadingZeros (0#W)).unique (.of_all_eq fun _ _ => BitVec.getLsbD_zero)

theorem trailingOnes_allOnes : trailingOnes (~~~(0#W)) = W :=
  (isRun_trailingOnes (~~~(0#W))).unique (.of_all_eq fun j hj => by simp [hj])

end

/-- Position j from the top is a bit below W. -/
theorem fromTop_lt (w : Width) (j : Nat) : w.bits - 1 - j < w.bits := by
  have := w.bits_pos
  omega

section
variable {w : Width} {i : Instr} {count : Request → Nat} {s : State} {t : Transaction} {rest : List Transaction}

/-- A command that answers a count of at most W places it on CNT as it is: 128 < 2^8 (30_encoding.md R69, 43_count.md R126). -/
theorem exec_count (hexec : ∀ s, exec i s = answer (fun r => countResponse (count r)) s)
    (hreq : s.requests = t :: rest) (hle : count t.request ≤ w.bits) :
    ∃ cnt : CountWord, exec i s = .next
      { requests := rest
        response := some { caller := t.caller, response := .ok 0#128 cnt }
        refused := s.refused
        draws := s.draws + 1 } ∧
      cnt.toNat = count t.request ∧ count t.request ≤ w.bits := by
  have hlt : count t.request < 2 ^ 8 := Nat.lt_of_le_of_lt (hle.trans w.bits_le) (by decide)
  exact ⟨_, (hexec s).trans (answer_cons _ hreq), Nat.mod_eq_of_lt hlt, hle⟩

/-- A command that answers the length of a run within a answers the length of that run within A: no position it looks at is
W or above. -/
theorem exec_run {v : Bool} {pos : Nat → Nat} (hpos : ∀ j, j < w.bits → pos j < w.bits)
    (hexec : ∀ s, exec i s = answer (fun r => countResponse (count r)) s) (hreq : s.requests = t :: rest)
    (hrun : IsRun v w.bits (fun j => (t.request.valueA w).getLsbD (pos j)) (count t.request)) :
    ∃ cnt : CountWord, exec i s = .next
      { requests := rest
        response := some { caller := t.caller, response := .ok 0#128 cnt }
        refused := s.refused
        draws := s.draws + 1 } ∧
      cnt.toNat ≤ w.bits ∧ (∀ j, j < cnt.toNat → t.request.a.getLsbD (pos j) = v) ∧
      (cnt.toNat < w.bits → t.request.a.getLsbD (pos cnt.toNat) = !v) := by
  obtain ⟨cnt, hnext, hcnt, -⟩ := exec_count hexec hreq hrun.le
  have hA : IsRun v w.bits (fun j => t.request.a.getLsbD (pos j)) cnt.toNat :=
    hcnt ▸ hrun.congr fun j hj => by simp [hpos j hj]
  exact ⟨cnt, hnext, hA.le, hA.inside, hA.next⟩

end

/-- Settles O19: the bytes of a hold its W bits, each once. -/
theorem populationCountCountsTheOneBits : Obligations.PopulationCountCountsTheOneBits := by
  refine ⟨rfl, fun w sg => ⟨decode_assembled rfl w sg, rfl⟩, fun w sg s t rest hreq => ?_⟩
  obtain ⟨cnt, hnext, hcnt, -⟩ := exec_count (exec_ebmPopulationCount w sg) hreq (populationCount_le _)
  refine ⟨cnt, hnext, ?_⟩
  calc cnt.toNat
    _ = (List.range w.bits).countP (t.request.valueA w).getLsbD := hcnt.trans (populationCount_eq_countP _)
    _ = (List.range w.bits).countP t.request.a.getLsbD :=
      List.countP_congr fun i hi => by simp [List.mem_range.1 hi]

/-- Settles O20: the scan from the top measures the run of zeros there. -/
theorem leadingZerosIsTheRunFromTheTop : Obligations.LeadingZerosIsTheRunFromTheTop :=
  ⟨rfl, fun w sg => ⟨decode_assembled rfl w sg, rfl⟩, fun w sg _ _ _ hreq =>
    exec_run (fun j _ => fromTop_lt w j) (exec_ebmLeadingZeros w sg) hreq (isRun_leadingZeros _)⟩

/-- Settles O21: the scan from the bottom measures the run of zeros there. -/
theorem trailingZerosIsTheRunFromTheBottom : Obligations.TrailingZerosIsTheRunFromTheBottom :=
  ⟨rfl, fun w sg => ⟨decode_assembled rfl w sg, rfl⟩, fun w sg _ _ _ hreq =>
    exec_run (pos := id) (fun _ hj => hj) (exec_ebmTrailingZeros w sg) hreq (isRun_trailingZeros _)⟩

/-- Settles O22: the scan from the top measures the run of ones there. -/
theorem leadingOnesIsTheRunFromTheTop : Obligations.LeadingOnesIsTheRunFromTheTop :=
  ⟨rfl, fun w sg => ⟨decode_assembled rfl w sg, rfl⟩, fun w sg _ _ _ hreq =>
    exec_run (fun j _ => fromTop_lt w j) (exec_ebmLeadingOnes w sg) hreq (isRun_leadingOnes _)⟩

/-- Settles O23: the scan from the bottom measures the run of ones there. -/
theorem trailingOnesIsTheRunFromTheBottom : Obligations.TrailingOnesIsTheRunFromTheBottom :=
  ⟨rfl, fun w sg => ⟨decode_assembled rfl w sg, rfl⟩, fun w sg _ _ _ hreq =>
    exec_run (pos := id) (fun _ hj => hj) (exec_ebmTrailingOnes w sg) hreq (isRun_trailingOnes _)⟩

/-- Settles O37: a sum over n bytes of 8 bits, or a run among W bits, is at most W, and W fits CNT. -/
theorem countsStayWithinTheWidth : Obligations.CountsStayWithinTheWidth := by
  intro w sg s t rest hreq
  simp only [List.forall_mem_cons]
  exact ⟨exec_count (exec_ebmPopulationCount w sg) hreq (populationCount_le _),
    exec_count (exec_ebmLeadingZeros w sg) hreq (isRun_leadingZeros _).le,
    exec_count (exec_ebmTrailingZeros w sg) hreq (isRun_trailingZeros _).le,
    exec_count (exec_ebmLeadingOnes w sg) hreq (isRun_leadingOnes _).le,
    exec_count (exec_ebmTrailingOnes w sg) hreq (isRun_trailingOnes _).le,
    List.forall_mem_nil _⟩

/-- Settles O38: complementing the bits exchanges ones and zeros, and with no other bit a run is all W long. -/
theorem countingLaws : Obligations.CountingLaws := fun n a =>
  ⟨populationCount_add_complement a, leadingZeros_zero (8 * n), trailingOnes_allOnes (8 * n),
    leadingOnes_eq_leadingZeros_not a, trailingOnes_eq_trailingZeros_not a⟩

end Sys2Proof.Machine

/-! SUPPORT. The Arithmetic Unit: each result as a number (44_arith.md R141 to R145), and what cutting the operands to W bits
(30_encoding.md R68) and placing the result on RES (R69) make of it. -/

namespace Sys2Proof.Machine

section
variable {W : Nat} (a b : BitVec W)

@[simp] theorem add_toNat : (add a b).toNat = (a.toNat + b.toNat) % 2 ^ W := BitVec.toNat_ofNat _ _

@[simp] theorem multiply_toNat : (multiply a b).toNat = a.toNat * b.toNat % 2 ^ W := BitVec.toNat_ofNat _ _

/-- The residue of the integer difference is not negative, so it is the number the pattern stands for. -/
@[simp] theorem subtract_toNat : ((subtract a b).toNat : Int) = ((a.toNat : Int) - b.toNat) % 2 ^ W := by
  have hpos : (0 : Int) < 2 ^ W := by positivity
  simp [subtract, BitVec.toNat_ofInt, Int.toNat_of_nonneg (Int.emod_nonneg _ hpos.ne')]

variable {b}

theorem divMod_of_eq_zero (hb : b.toNat = 0) : divMod a b = .error .divisionByZero := if_pos hb

/-- Quotient and remainder by a nonzero divisor are those of the library's unsigned division: both are below 2^W, so
neither is reduced. -/
theorem divMod_of_ne_zero (hb : b.toNat ≠ 0) : divMod a b = .ok (a / b, a % b) := by
  rw [divMod, if_neg hb, ← BitVec.toNat_udiv, ← BitVec.toNat_umod, BitVec.ofNat_toNat, BitVec.ofNat_toNat,
    BitVec.setWidth_eq, BitVec.setWidth_eq]

theorem divide_of_eq_zero (hb : b.toNat = 0) : divide a b = .error .divisionByZero := by
  rw [divide, divMod_of_eq_zero a hb]
  rfl

theorem divide_of_ne_zero (hb : b.toNat ≠ 0) : divide a b = .ok (a / b) := by
  rw [divide, divMod_of_ne_zero a hb]
  rfl

theorem modulo_of_eq_zero (hb : b.toNat = 0) : modulo a b = .error .divisionByZero := by
  rw [modulo, divMod_of_eq_zero a hb]
  rfl

theorem modulo_of_ne_zero (hb : b.toNat ≠ 0) : modulo a b = .ok (a % b) := by
  rw [modulo, divMod_of_ne_zero a hb]
  rfl

end

/-- A value is placed on RES as the number it stands for. -/
theorem valueResponse_eq_ofNat {W : Nat} (r : BitVec W) : valueResponse r = .ok (BitVec.ofNat 128 r.toNat) 0#8 := by
  rw [valueResponse, BitVec.ofNat_toNat]

@[simp] theorem outcomeResponse_ok {W : Nat} (r : BitVec W) : outcomeResponse (.ok r) = valueResponse r := rfl

@[simp] theorem outcomeResponse_error {W : Nat} (e : ErrorKind) :
    outcomeResponse (W := W) (.error e) = .err e := rfl

section
variable (r : Request) (w : Width)

/-- The bits of A and B from W up do not reach the sum modulo 2^W. -/
theorem valueResponse_add :
    valueResponse (add (r.valueA w) (r.valueB w)) =
      .ok (BitVec.ofNat 128 ((r.a.toNat + r.b.toNat) % 2 ^ w.bits)) 0#8 := by
  rw [valueResponse_eq_ofNat, add_toNat, Request.valueA_toNat, Request.valueB_toNat, ← Nat.add_mod]

/-- The bits of A and B from W up do not reach the product modulo 2^W. -/
theorem valueResponse_multiply :
    valueResponse (multiply (r.valueA w) (r.valueB w)) =
      .ok (BitVec.ofNat 128 (r.a.toNat * r.b.toNat % 2 ^ w.bits)) 0#8 := by
  rw [valueResponse_eq_ofNat, multiply_toNat, Request.valueA_toNat, Request.valueB_toNat, ← Nat.mul_mod]

/-- The bits of A and B from W up do not reach the difference modulo 2^W. -/
theorem valueResponse_subtract :
    valueResponse (subtract (r.valueA w) (r.valueB w)) =
      .ok (BitVec.ofInt 128 (((r.a.toNat : Int) - r.b.toNat) % 2 ^ w.bits)) 0#8 := by
  have hcut : ((subtract (r.valueA w) (r.valueB w)).toNat : Int) = ((r.a.toNat : Int) - r.b.toNat) % 2 ^ w.bits := by
    rw [subtract_toNat, Request.valueA_toNat, Request.valueB_toNat]
    push_cast
    exact (Int.sub_emod _ _ _).symm
  rw [valueResponse_eq_ofNat, ← BitVec.ofInt_natCast, hcut]

variable {r w}

theorem outcomeResponse_divide_of_zero (hb : r.b.toNat % 2 ^ w.bits = 0) :
    outcomeResponse (divide (r.valueA w) (r.valueB w)) = .err .divisionByZero := by
  rw [divide_of_eq_zero _ (by rwa [Request.valueB_toNat]), outcomeResponse_error]

theorem outcomeResponse_divide_of_ne_zero (hb : r.b.toNat % 2 ^ w.bits ≠ 0) :
    outcomeResponse (divide (r.valueA w) (r.valueB w)) =
      .ok (BitVec.ofNat 128 (r.a.toNat % 2 ^ w.bits / (r.b.toNat % 2 ^ w.bits))) 0#8 := by
  rw [divide_of_ne_zero _ (by rwa [Request.valueB_toNat]), outcomeResponse_ok, valueResponse_eq_ofNat,
    BitVec.toNat_udiv, Request.valueA_toNat, Request.valueB_toNat]

theorem outcomeResponse_modulo_of_zero (hb : r.b.toNat % 2 ^ w.bits = 0) :
    outcomeResponse (modulo (r.valueA w) (r.valueB w)) = .err .divisionByZero := by
  rw [modulo_of_eq_zero _ (by rwa [Request.valueB_toNat]), outcomeResponse_error]

theorem outcomeResponse_modulo_of_ne_zero (hb : r.b.toNat % 2 ^ w.bits ≠ 0) :
    outcomeResponse (modulo (r.valueA w) (r.valueB w)) =
      .ok (BitVec.ofNat 128 (r.a.toNat % 2 ^ w.bits % (r.b.toNat % 2 ^ w.bits))) 0#8 := by
  rw [modulo_of_ne_zero _ (by rwa [Request.valueB_toNat]), outcomeResponse_ok, valueResponse_eq_ofNat,
    BitVec.toNat_umod, Request.valueA_toNat, Request.valueB_toNat]

end

/-- The next state of a command whose response to the first request in flight is known. -/
theorem exec_response {i : Instr} {op : Request → Response} (hexec : ∀ s, exec i s = answer op s)
    {s : State} {t : Transaction} {rest : List Transaction} (hreq : s.requests = t :: rest) {response : Response}
    (hop : op t.request = response) :
    exec i s = .next
      { requests := rest
        response := some { caller := t.caller, response := response }
        refused := s.refused
        draws := s.draws + 1 } := by
  rw [hexec, answer_cons op hreq, hop]

/-- Settles O24: the sum of the operands cut to W bits is, modulo 2^W, the sum of A and B. -/
theorem addIsTheSumModuloTwoToTheW : Obligations.AddIsTheSumModuloTwoToTheW :=
  ⟨rfl, fun w sg => ⟨decode_assembled rfl w sg, rfl⟩, fun w sg _ t _ hreq =>
    exec_response (exec_ebmAdd w sg) hreq (valueResponse_add t.request w)⟩

/-- Settles O25: the integer difference of the operands cut to W bits is, modulo 2^W, that of A and B. -/
theorem subtractIsTheDifferenceModuloTwoToTheW : Obligations.SubtractIsTheDifferenceModuloTwoToTheW :=
  ⟨rfl, fun w sg => ⟨decode_assembled rfl w sg, rfl⟩, fun w sg _ t _ hreq =>
    exec_response (exec_ebmSubtract w sg) hreq (valueResponse_subtract t.request w)⟩

/-- Settles O26: the product of the operands cut to W bits is, modulo 2^W, the product of A and B. -/
theorem multiplyIsTheProductModuloTwoToTheW : Obligations.MultiplyIsTheProductModuloTwoToTheW :=
  ⟨rfl, fun w sg => ⟨decode_assembled rfl w sg, rfl⟩, fun w sg _ t _ hreq =>
    exec_response (exec_ebmMultiply w sg) hreq (valueResponse_multiply t.request w)⟩

/-- Settles O27: the divisor is zero exactly if the low W bits of B are, and otherwise the quotient is unsigned. -/
theorem divideIsTheUnsignedQuotient : Obligations.DivideIsTheUnsignedQuotient :=
  ⟨rfl, fun w sg => ⟨decode_assembled rfl w sg, rfl⟩, fun w sg _ _ _ hreq =>
    ⟨fun hb => exec_response (exec_ebmDivide w sg) hreq (outcomeResponse_divide_of_zero hb),
      fun hb => exec_response (exec_ebmDivide w sg) hreq (outcomeResponse_divide_of_ne_zero hb)⟩⟩

/-- Settles O28: the divisor is zero exactly if the low W bits of B are, and otherwise the remainder is unsigned. -/
theorem moduloIsTheUnsignedRemainder : Obligations.ModuloIsTheUnsignedRemainder :=
  ⟨rfl, fun w sg => ⟨decode_assembled rfl w sg, rfl⟩, fun w sg _ _ _ hreq =>
    ⟨fun hb => exec_response (exec_ebmModulo w sg) hreq (outcomeResponse_modulo_of_zero hb),
      fun hb => exec_response (exec_ebmModulo w sg) hreq (outcomeResponse_modulo_of_ne_zero hb)⟩⟩

end Sys2Proof.Machine

/-! SUPPORT. Which responses are DivisionByZero: the STATUS code tells it, and only divide and modulo ever give it
(60_exceptions.md R171, R172). -/

namespace Sys2Proof.Machine

/-- STATUS = 01 says DivisionByZero and nothing else (10_state.md R27, 60_exceptions.md R171). -/
theorem Response.status_eq_divz_iff (r : Response) : r.status = 0b01#2 ↔ r = .err .divisionByZero := by
  cases r with
  | ok res cnt => simp [Response.status]
  | err e => cases e; simp [Response.status]

/-- There is one error kind, so every other response has STATUS = 00 (60_exceptions.md R170). -/
theorem Response.status_eq_ok_iff (r : Response) : r.status = 0b00#2 ↔ r ≠ .err .divisionByZero := by
  cases r with
  | ok res cnt => simp [Response.status]
  | err e => cases e; simp [Response.status]

section
variable (r : Request) (w : Width)

theorem outcomeResponse_divide_eq_err_iff :
    outcomeResponse (divide (r.valueA w) (r.valueB w)) = .err .divisionByZero ↔ r.b.toNat % 2 ^ w.bits = 0 := by
  by_cases hb : r.b.toNat % 2 ^ w.bits = 0
  · exact iff_of_true (outcomeResponse_divide_of_zero hb) hb
  · exact iff_of_false (by simp [outcomeResponse_divide_of_ne_zero hb]) hb

theorem outcomeResponse_modulo_eq_err_iff :
    outcomeResponse (modulo (r.valueA w) (r.valueB w)) = .err .divisionByZero ↔ r.b.toNat % 2 ^ w.bits = 0 := by
  by_cases hb : r.b.toNat % 2 ^ w.bits = 0
  · exact iff_of_true (outcomeResponse_modulo_of_zero hb) hb
  · exact iff_of_false (by simp [outcomeResponse_modulo_of_ne_zero hb]) hb

end

/-- The response that each instruction's meaning gives is the error for divide and modulo by zero alone: the other eighteen
place a value, bytes or a count, which is the OK variant whatever the operands are (60_exceptions.md R172). -/
theorem exec_answers_err_iff (i : Instr) :
    ∃ op : Request → Response, (∀ s, exec i s = answer op s) ∧ ∀ r, op r = .err .divisionByZero ↔
      (i.opcode = 0x1B#5 ∨ i.opcode = 0x1C#5) ∧ r.b.toNat % 2 ^ i.width.bits = 0 := by
  cases i with
  | ebmDivide w sg =>
    exact ⟨_, exec_ebmDivide w sg, fun r =>
      (outcomeResponse_divide_eq_err_iff r w).trans (and_iff_right (.inl rfl)).symm⟩
  | ebmModulo w sg =>
    exact ⟨_, exec_ebmModulo w sg, fun r =>
      (outcomeResponse_modulo_eq_err_iff r w).trans (and_iff_right (.inr rfl)).symm⟩
  | _ =>
    refine ⟨_, fun s => by unfold exec; rfl, fun r => iff_of_false ?_ ?_⟩
    · exact Response.noConfusion
    · simp [Instr.opcode]

/-- Settles O46: every instruction answers, with the error for a zero divisor alone, and STATUS is the code of that answer. -/
theorem onlyZeroDivisorsGiveAnError : Obligations.OnlyZeroDivisorsGiveAnError := by
  intro i s t rest hreq
  obtain ⟨op, hexec, herr⟩ := exec_answers_err_iff i
  exact ⟨_, op t.request, exec_response hexec hreq rfl, rfl, herr t.request,
    Response.status_eq_divz_iff _, Response.status_eq_ok_iff _⟩

end Sys2Proof.Machine

/-! SUPPORT. The encoder against the decoder: the fields of a word assemble back to it, the tables give each instruction back
from its codes, and the admitted words are one for each code, width and tag (30_encoding.md R60 to R65, R71). -/

namespace Sys2Proof

/-- The four fields cover the word: together they are it (30_encoding.md R60). -/
theorem fields_append (cmd : Command) :
    rsvField cmd ++ BitVec.ofBool (signField cmd) ++ widField cmd ++ opField cmd = cmd := by
  have hsign : BitVec.ofBool (signField cmd) = cmd.extractLsb' 8 1 := by
    ext j hj
    simp [signField, Nat.lt_one_iff.1 hj]
  have htag : cmd.extractLsb' 9 7 ++ cmd.extractLsb' 8 1 = cmd.extractLsb' 8 8 :=
    BitVec.extractLsb'_append_extractLsb'_eq_extractLsb' rfl
  have hwid : cmd.extractLsb' 8 8 ++ cmd.extractLsb' 5 3 = cmd.extractLsb' 5 11 :=
    BitVec.extractLsb'_append_extractLsb'_eq_extractLsb' rfl
  have hop : cmd.extractLsb' 5 11 ++ cmd.extractLsb' 0 5 = cmd.extractLsb' 0 16 :=
    BitVec.extractLsb'_append_extractLsb'_eq_extractLsb' rfl
  rw [hsign, rsvField, widField, opField, htag, hwid, hop, BitVec.extractLsb'_eq_self]

/-- The code of an instruction selects its operation in the table of 30_encoding.md R61. -/
theorem opOfCode_opcode (i : Instr) : ∃ op, opOfCode i.opcode = some op ∧ op i.width i.signedness = i := by
  cases i <;> exact ⟨_, rfl, rfl⟩

section
variable {code : BitVec 5} {op : Width → Signedness → Instr} (h : opOfCode code = some op) (w : Width) (sg : Signedness)
include h

/-- An operation found in the table has the code under which it stands there. -/
theorem opcode_of_opOfCode : (op w sg).opcode = code := by
  unfold opOfCode at h
  split at h <;> cases h <;> exact (BitVec.eq_of_toNat_eq ‹_›).symm

theorem width_of_opOfCode : (op w sg).width = w := by
  unfold opOfCode at h
  split at h <;> cases h <;> rfl

theorem signedness_of_opOfCode : (op w sg).signedness = sg := by
  unfold opOfCode at h
  split at h <;> cases h <;> rfl

end

/-- A width found in the table has the code under which it stands there. -/
theorem code_of_widthOfCode {wid : BitVec 3} {w : Width} (h : widthOfCode wid = some w) : w.code = wid := by
  unfold widthOfCode at h
  split at h <;> cases h <;> exact (BitVec.eq_of_toNat_eq ‹_›).symm

@[simp] theorem code_signOfBit (bit : Bool) : (signOfBit bit).code = BitVec.ofBool bit := by cases bit <;> rfl

/-- Settles O3: decoding reads back the fields that encoding assembles, and a decoded word has no bit outside the fields that
its instruction fixes. -/
theorem decodeIsTheInverseOfEncode : Obligations.DecodeIsTheInverseOfEncode := by
  intro cmd i
  constructor
  · intro h
    obtain ⟨hr, op, w, hop, hw, rfl⟩ := decode_eq_ok_iff.1 h
    rw [encode, opcode_of_opOfCode hop, width_of_opOfCode hop, signedness_of_opOfCode hop, code_of_widthOfCode hw,
      code_signOfBit, ← hr, fields_append]
  · rintro rfl
    obtain ⟨op, hop, hi⟩ := opOfCode_opcode i
    exact (decode_assembled hop i.width i.signedness).trans (congrArg _ hi)

theorem decode_encode (i : Instr) : decode (encode i) = .ok i := (decodeIsTheInverseOfEncode _ i).2 rfl

/-- With RSV zero, the bits from 8 up are the tag alone. -/
theorem signField_toNat {cmd : Command} (hr : rsvField cmd = 0#7) : (signField cmd).toNat = cmd.toNat / 256 := by
  have hlt : cmd.toNat / 512 = 0 := (rsvField_eq_zero_iff cmd).1 hr
  calc (signField cmd).toNat
    _ = cmd.toNat / 2 ^ 8 % 2 := Nat.toNat_testBit ..
    _ = cmd.toNat / 256 := by omega

/-- Settles O6: the tables have an entry for exactly the codes that R65 does not reserve, and an instruction has the codes
under which its parts stand in them. -/
theorem decoderAdmitsExactlyWellFormedWords : Obligations.DecoderAdmitsExactlyWellFormedWords := by
  refine fun cmd => ⟨(decode_ok_iff_wellFormed cmd).symm, fun i h => ?_⟩
  obtain ⟨hr, op, w, hop, hw, rfl⟩ := decode_eq_ok_iff.1 h
  rw [opcode_of_opOfCode hop, width_of_opOfCode hop, signedness_of_opOfCode hop, code_of_widthOfCode hw, code_signOfBit]
  exact ⟨opField_toNat cmd, widField_toNat cmd, by rw [BitVec.toNat_ofBool, signField_toNat hr]⟩

/-! The list of all admitted words. -/

/-- The codes that the table of 30_encoding.md R61 assigns. -/
def assignedCodes : List (BitVec 5) := (List.ofFn BitVec.ofFin).filter fun code => (opOfCode code).isSome

def Width.all : List Width := [.w8, .w16, .w32, .w64, .w128, .wn]

def Signedness.all : List Signedness := [.unsigned, .signed]

theorem mem_assignedCodes {code : BitVec 5} : code ∈ assignedCodes ↔ ∃ op, opOfCode code = some op := by
  have hmem : code ∈ List.ofFn BitVec.ofFin := List.mem_ofFn.2 ⟨code.toFin, rfl⟩
  rw [assignedCodes, List.mem_filter, Option.isSome_iff_exists, and_iff_right hmem]

theorem Width.mem_all (w : Width) : w ∈ Width.all := by cases w <;> decide

theorem Signedness.mem_all (sg : Signedness) : sg ∈ Signedness.all := by cases sg <;> decide

/-- The word of a code, a width and a tag (30_encoding.md R60). -/
def wordOfParts (parts : BitVec 5 × Width × Signedness) : Command :=
  0#7 ++ parts.2.2.code ++ parts.2.1.code ++ parts.1

theorem wordOfParts_injective : Function.Injective wordOfParts := by
  rintro ⟨code, w, sg⟩ ⟨code', w', sg'⟩ h
  have hcode : code = code' := by simpa [wordOfParts] using congrArg opField h
  have hw : w = w' := by simpa [wordOfParts] using congrArg (fun cmd => widthOfCode (widField cmd)) h
  have hsg : sg = sg' := by simpa [wordOfParts] using congrArg (fun cmd => signOfBit (signField cmd)) h
  rw [hcode, hw, hsg]

/-- The admitted words, one for each assigned code, width and tag (30_encoding.md section 3). -/
def admittedWords : List Command := (assignedCodes ×ˢ Width.all ×ˢ Signedness.all).map wordOfParts

theorem admittedWords_nodup : admittedWords.Nodup := by
  have hcodes : assignedCodes.Nodup := by decide
  have hwidths : Width.all.Nodup := by decide
  have htags : Signedness.all.Nodup := by decide
  exact (hcodes.product (hwidths.product htags)).map wordOfParts_injective

/-- Twenty operations, six widths, two tags. -/
theorem admittedWords_length : admittedWords.length = 240 := by
  have hcodes : assignedCodes.length = 20 := by decide
  rw [admittedWords, List.length_map, List.length_product, List.length_product, hcodes]
  rfl

theorem mem_admittedWords (cmd : Command) : cmd ∈ admittedWords ↔ ∃ i, decode cmd = .ok i := by
  simp only [admittedWords, List.mem_map, Prod.exists, List.mem_product, mem_assignedCodes, Width.mem_all,
    Signedness.mem_all, and_true]
  constructor
  · rintro ⟨code, w, sg, ⟨op, hop⟩, rfl⟩
    exact ⟨_, decode_assembled hop w sg⟩
  · rintro ⟨i, h⟩
    obtain ⟨op, hop, -⟩ := opOfCode_opcode i
    exact ⟨i.opcode, i.width, i.signedness, ⟨op, hop⟩, ((decodeIsTheInverseOfEncode cmd i).1 h).symm⟩

/-- Settles O5: the admitted words are those of 20 codes, 6 widths and 2 tags, and no two of these share a word. -/
theorem twoHundredFortyWordsAreAdmitted : Obligations.TwoHundredFortyWordsAreAdmitted :=
  ⟨admittedWords, admittedWords_nodup, admittedWords_length, mem_admittedWords⟩

/-- Settles O1: the tables by computation, and the bounds of the native width from those of every width. -/
theorem widthCodesSelectTheirWidths : Obligations.WidthCodesSelectTheirWidths :=
  have hlow : 8 ≤ Width.bits .wn := Nat.le_mul_of_pos_right 8 (Width.bytes_pos .wn)
  ⟨rfl, rfl, rfl, rfl, rfl, rfl, rfl, rfl, Nat.dvd_mul_right 8 _, hlow, Width.bits_le .wn, fun _ => rfl⟩

/-- Settles O2: each word runs through the tables. -/
theorem wordsOfTheSpecDecodeAsItSays : Obligations.WordsOfTheSpecDecodeAsItSays :=
  ⟨rfl, rfl, rfl, rfl, rfl, rfl, rfl, rfl, rfl, rfl, rfl, rfl, rfl, rfl⟩

end Sys2Proof

/-! SUPPORT. What a response can hold, whatever the operands are (10_state.md R27, 30_encoding.md R69), and which fields of the
request it depends on (30_encoding.md R67, R68). -/

namespace Sys2Proof.Machine

/-- The counting commands: the codes 0x10 to 0x14 of 30_encoding.md R61. -/
def isCounting (i : Instr) : Bool := decide (0x10 ≤ i.opcode.toNat ∧ i.opcode.toNat ≤ 0x14)

/-- The responses that 30_encoding.md R69 places for an instruction: a count of at most W, a W-bit value, or the error. -/
inductive PlacedResponse (i : Instr) : Response → Prop where
  | count (hi : isCounting i = true) {c : Nat} (hc : c ≤ i.width.bits) : PlacedResponse i (countResponse c)
  | value (hi : isCounting i = false) (v : BitVec i.width.bits) : PlacedResponse i (valueResponse v)
  | error (hi : isCounting i = false) (e : ErrorKind) : PlacedResponse i (.err e)

theorem PlacedResponse.outcome {i : Instr} (hi : isCounting i = false) (v : Except ErrorKind (BitVec i.width.bits)) :
    PlacedResponse i (outcomeResponse v) :=
  match v with
  | .ok v => .value hi v
  | .error e => .error hi e

/-- Every meaning answers with a response placed as R69 says. -/
theorem exec_answers_placed (i : Instr) :
    ∃ op : Request → Response, (∀ s, exec i s = answer op s) ∧ ∀ r, PlacedResponse i (op r) := by
  cases i with
  | ebmToBytes w sg =>
    exact ⟨_, exec_ebmToBytes w sg, fun r => valueResponse_fromBytes (toBytes _) ▸ .value rfl _⟩
  | ebmPopulationCount w sg =>
    exact ⟨_, exec_ebmPopulationCount w sg, fun r => .count rfl (populationCount_le _)⟩
  | ebmLeadingZeros w sg => exact ⟨_, exec_ebmLeadingZeros w sg, fun r => .count rfl (isRun_leadingZeros _).le⟩
  | ebmTrailingZeros w sg => exact ⟨_, exec_ebmTrailingZeros w sg, fun r => .count rfl (isRun_trailingZeros _).le⟩
  | ebmLeadingOnes w sg => exact ⟨_, exec_ebmLeadingOnes w sg, fun r => .count rfl (isRun_leadingOnes _).le⟩
  | ebmTrailingOnes w sg => exact ⟨_, exec_ebmTrailingOnes w sg, fun r => .count rfl (isRun_trailingOnes _).le⟩
  | ebmDivide w sg => exact ⟨_, exec_ebmDivide w sg, fun r => .outcome rfl _⟩
  | ebmModulo w sg => exact ⟨_, exec_ebmModulo w sg, fun r => .outcome rfl _⟩
  | _ =>
    refine ⟨_, fun s => by unfold exec; rfl, fun r => .value rfl _⟩

/-- 10_state.md R27: a count is at most W, which is at most 128, and only counts use CNT. -/
theorem PlacedResponse.legal {i : Instr} {r : Response} (h : PlacedResponse i r) : r.legal = true := by
  cases h with
  | count _ hc =>
    have hle : (BitVec.ofNat 8 _).toNat ≤ 128 := (Nat.mod_le _ _).trans (hc.trans i.width.bits_le)
    simp only [countResponse, Response.legal, hle, decide_true, Bool.true_or, Bool.and_self]
  | value _ v => simp [valueResponse, Response.legal]
  | error _ e => rfl

/-- Of RES and CNT the one that the operation does not write is zero, and a value has no bit from W up. -/
theorem PlacedResponse.outputs {i : Instr} {res : Bus} {cnt : CountWord} (h : PlacedResponse i (.ok res cnt)) :
    if 0x10 ≤ i.opcode.toNat ∧ i.opcode.toNat ≤ 0x14 then res = 0#128 else cnt = 0#8 ∧ res.toNat < 2 ^ i.width.bits := by
  generalize hr : Response.ok res cnt = r at h
  cases h with
  | count hi _ =>
    cases hr
    exact (if_pos (of_decide_eq_true hi)).mpr rfl
  | value hi v =>
    cases hr
    rw [if_neg (of_decide_eq_false hi), BitVec.toNat_setWidth]
    exact ⟨rfl, Nat.lt_of_le_of_lt (Nat.mod_le _ _) v.isLt⟩
  | error _ _ => cases hr

section
variable {i : Instr} {r r' : Request} (hA : r.valueA i.width = r'.valueA i.width)
  (hB : operandForm i = .binary → r.valueB i.width = r'.valueB i.width)
  (hk : operandForm i = .amount → r.amt = r'.amt)
include hA hB hk

/-- A meaning reads a, and of B and AMT what its operand form has (30_encoding.md R67): alone in flight, requests that agree in
that lead to one state. -/
theorem exec_alone_congr : exec i r.alone = exec i r'.alone := by
  simp only [Instr.width] at hA hB
  cases i with
  | ebmToBytes w sg | ebmNot w sg | ebmPopulationCount w sg | ebmLeadingZeros w sg | ebmTrailingZeros w sg
  | ebmLeadingOnes w sg | ebmTrailingOnes w sg =>
    simp only [exec_ebmToBytes, exec_ebmNot, exec_ebmPopulationCount, exec_ebmLeadingZeros, exec_ebmTrailingZeros,
      exec_ebmLeadingOnes, exec_ebmTrailingOnes, answer_cons _ (Request.alone_requests _), hA, Request.alone_refused,
      Request.alone_draws]
  | ebmFromBytes w sg =>
    simp only [exec_ebmFromBytes, ← toBytes_valueA, answer_cons _ (Request.alone_requests _), hA,
      Request.alone_refused, Request.alone_draws]
  | ebmLeftShift w sg | ebmRightShift w sg | ebmRotateLeft w sg | ebmRotateRight w sg =>
    simp only [exec_ebmLeftShift, exec_ebmRightShift, exec_ebmRotateLeft, exec_ebmRotateRight, Request.amount,
      answer_cons _ (Request.alone_requests _), hA, hk rfl, Request.alone_refused, Request.alone_draws]
  | ebmAnd w sg | ebmOr w sg | ebmXor w sg | ebmAdd w sg | ebmSubtract w sg | ebmMultiply w sg | ebmDivide w sg
  | ebmModulo w sg =>
    simp only [exec_ebmAnd, exec_ebmOr, exec_ebmXor, exec_ebmAdd, exec_ebmSubtract, exec_ebmMultiply, exec_ebmDivide,
      exec_ebmModulo, answer_cons _ (Request.alone_requests _), hA, hB rfl, Request.alone_refused, Request.alone_draws]

theorem response_congr {op : Request → Response} (hop : ∀ s, exec i s = answer op s) : op r = op r' := by
  simpa [hop, answer_cons op (Request.alone_requests _)] using exec_alone_congr hA hB hk

end

/-- Settles O51: the response depends on the W-bit operands that the operand form has, and is placed as R69 says. -/
theorem unreadFieldsAreIgnored : Obligations.UnreadFieldsAreIgnored := by
  intro r r' i hd hd' hA hB hk
  obtain ⟨op, hop, hplaced⟩ := exec_answers_placed i
  have hvalueA : r.valueA i.width = r'.valueA i.width := BitVec.eq_of_toNat_eq (by simpa using hA)
  have hvalueB : operandForm i = .binary → r.valueB i.width = r'.valueB i.width := fun hform =>
    BitVec.eq_of_toNat_eq (by simpa using hB hform)
  rw [transact_admitted hd hop, transact_admitted hd' hop, response_congr hvalueA hvalueB hk hop]
  exact ⟨rfl, fun res cnt h => PlacedResponse.outputs (Option.some.inj h ▸ hplaced r')⟩

/-! The step, and the ports. -/

/-- Settles O7: `step` reads the word of the first transaction in flight and runs what it decodes to. -/
theorem stepRunsTheDecodedCommand : Obligations.StepRunsTheDecodedCommand := fun _ _ _ _ hreq hd =>
  step_admitted hreq hd

/-- Settles O8: `step` idles, and so does `answer`, which every meaning is. -/
theorem nothingInFlightNothingAnswered : Obligations.NothingInFlightNothingAnswered := by
  intro s hreq
  have hidle : s.idle = { requests := [], response := none, refused := s.refused, draws := s.draws + 1 } := by
    rw [State.idle, hreq]
  refine ⟨hidle ▸ step_nil hreq, fun i => ?_⟩
  obtain ⟨op, hop⟩ := exec_is_answer i
  exact hidle ▸ (hop s).trans (answer_nil op hreq)

/-- Settles O52: the three ports are views of the response. -/
theorem portsCarryTheResponse : Obligations.PortsCarryTheResponse := by
  intro s c r hr
  have hstatus : s.statusPort = r.status := by simp only [State.statusPort, hr]
  rw [hstatus]
  refine ⟨?_, (Response.status_eq_divz_iff r).2, ?_⟩
  · by_cases herr : r = .err .divisionByZero
    · exact .inr ((Response.status_eq_divz_iff r).2 herr)
    · exact .inl ((Response.status_eq_ok_iff r).2 herr)
  · rintro res cnt rfl
    exact ⟨rfl, by simp only [State.resPort, hr], by simp only [State.cntPort, hr]⟩

/-- Settles O47: a step gives the first request in flight what its decoded instruction answers, and `transact` is that step on
the request alone. -/
theorem responseDependsOnTheRequestAlone : Obligations.ResponseDependsOnTheRequestAlone := by
  intro q hq
  obtain ⟨i, hd⟩ := (decode_ok_iff_wellFormed q.cmd).2 hq
  obtain ⟨op, hop⟩ := exec_is_answer i
  refine ⟨op q, transact_admitted hd hop, ?_⟩
  rintro s t rest hreq rfl
  rw [step_admitted hreq hd, exec_response hop hreq rfl]

end Sys2Proof.Machine

/-! SUPPORT. The invariant: one transaction outstanding for each caller (70_reset_and_hazards.md R194) and a legal response on
the ports (10_state.md R27), kept by every step and by what callers and reset do from outside. -/

namespace Sys2Proof.Machine

/-- Nothing outstanding and nothing on the ports. -/
theorem State.inv_of_empty {s : State} (hreq : s.requests = []) (href : s.refused = []) (hresp : s.response = none) :
    s.Inv where
  oneOutstandingPerCaller := by simp [State.callers, hreq, href]
  responseLegal d hd := by simp [hresp] at hd

/-- Settles O54: after reset nothing is outstanding. -/
theorem resetMeetsTheInvariant : Obligations.ResetMeetsTheInvariant := State.inv_of_empty rfl rfl rfl

/-- Settles O56: `State.reset` says so, and it is the reset of the core. -/
theorem resetLeavesNothingPending : Obligations.ResetLeavesNothingPending := ⟨rfl, rfl, rfl, rfl⟩

/-- Settles O53: refusing a request moves its caller from those that wait for an answer to those that were refused, and
answering it frees the caller. -/
theorem stepKeepsTheInvariant : Obligations.StepKeepsTheInvariant := by
  intro s s' hinv hstep
  obtain ⟨hnodup, hlegal⟩ := hinv
  rcases step_cases hstep with ⟨-, rfl⟩ | ⟨t, rest, why, hreq, -, rfl⟩ | ⟨t, rest, i, hreq, -, hexec⟩
  case inl => exact ⟨hnodup, fun d hd => nomatch hd⟩
  case inr.inl =>
    refine ⟨?_, fun d hd => nomatch hd⟩
    rw [State.callers, hreq] at hnodup
    rw [State.callers, List.map_append, ← List.append_assoc]
    exact (List.perm_append_singleton ..).nodup_iff.2 hnodup
  case inr.inr =>
    obtain ⟨op, hop, hplaced⟩ := exec_answers_placed i
    rw [exec_response hop hreq rfl] at hexec
    cases hexec
    rw [State.callers, hreq] at hnodup
    refine ⟨hnodup.of_cons, fun d hd => ?_⟩
    cases hd
    exact (hplaced t.request).legal

/-- The invariant of a state whose ports carry what those of another do and whose callers are known. -/
theorem State.Inv.of_callers {s s' : State} (hinv : s.Inv) (hnodup : s'.callers.Nodup)
    (hresp : s'.response = s.response) : s'.Inv where
  oneOutstandingPerCaller := hnodup
  responseLegal d hd := hinv.responseLegal d (hresp ▸ hd)

/-- A transaction enters among the others, which stay in their order with their callers and requests. -/
theorem enter_split (place : Nat) (t : Transaction) (ts : List Transaction) :
    ∃ before after : List Transaction, enter place t ts = before ++ t :: after ∧
      (before ++ after).map (fun u => (u.caller, u.request)) = ts.map (fun u => (u.caller, u.request)) := by
  obtain ⟨p, -, -, henter⟩ := enter_shape place t ts
  refine ⟨ts.take p, (ts.drop p).map Transaction.overtaken, henter, ?_⟩
  calc (ts.take p ++ (ts.drop p).map Transaction.overtaken).map (fun u => (u.caller, u.request))
    _ = (ts.take p ++ ts.drop p).map (fun u => (u.caller, u.request)) := by simp [Function.comp_def]
    _ = ts.map (fun u => (u.caller, u.request)) := by rw [List.take_append_drop]

theorem enter_callers_perm (place : Nat) (t : Transaction) (ts : List Transaction) :
    ((enter place t ts).map (·.caller)).Perm (t.caller :: ts.map (·.caller)) := by
  obtain ⟨before, after, henter, hothers⟩ := enter_split place t ts
  have hcallers : (before ++ after).map (·.caller) = ts.map (·.caller) := by
    simpa [Function.comp_def] using congrArg (List.map Prod.fst) hothers
  rw [henter, ← hcallers]
  exact List.perm_middle.map Transaction.caller

theorem State.Inv.issue {s : State} (hinv : s.Inv) (place : Nat) (t : Transaction) : (s.issue place t).Inv := by
  by_cases hmem : t.caller ∈ s.callers
  · rwa [State.issue_of_mem place hmem]
  · refine hinv.of_callers ?_ (State.issue_response s place t)
    rw [State.issue_of_not_mem place hmem]
    exact ((enter_callers_perm place t s.requests).append_right _).nodup_iff.2
      (hinv.oneOutstandingPerCaller.cons hmem)

theorem State.Inv.giveUp {s : State} (hinv : s.Inv) (c : Nat) : (s.giveUp c).Inv :=
  have hsub : (s.giveUp c).callers.Sublist s.callers :=
    (List.Sublist.refl _).append (List.filter_sublist.map RefusedRequest.caller)
  hinv.of_callers (hinv.oneOutstandingPerCaller.sublist hsub) rfl

/-- A caller with none in flight that gives up its refused request has none outstanding. -/
theorem State.not_mem_callers_giveUp {s : State} {c : Nat} (hc : c ∉ s.requests.map (·.caller)) :
    c ∉ (s.giveUp c).callers := by
  rw [State.callers, List.mem_append, not_or, State.giveUp_requests, State.giveUp_refused]
  exact ⟨hc, by simp⟩

theorem State.Inv.presentCommand {s : State} (hinv : s.Inv) (cmd : Command) : (s.presentCommand cmd).Inv := by
  refine hinv.of_callers ?_ (State.presentCommand_response cmd s)
  cases hreq : s.requests with
  | nil =>
    have hfree : 0 ∉ (s.giveUp 0).callers := State.not_mem_callers_giveUp (by simp [hreq])
    have hnodup := (hinv.giveUp 0).oneOutstandingPerCaller.cons hfree
    simpa [State.callers, State.presentCommand, hreq] using hnodup
  | cons t rest => simpa [State.callers, State.presentCommand, hreq] using hinv.oneOutstandingPerCaller

/-- Settles O55: a caller enters only where it has nothing outstanding, and giving up only takes callers away. -/
theorem presentingARequestKeepsTheInvariant : Obligations.PresentingARequestKeepsTheInvariant := fun s place t hinv =>
  ⟨hinv.issue place t, State.inv_of_empty rfl rfl rfl, hinv.giveUp t.caller,
    fun cmd => ⟨hinv.presentCommand cmd, State.presentCommand_nextCommand cmd s⟩,
    State.issue_of_mem place, State.not_mem_callers_giveUp, fun hfree => by
      rw [State.issue_of_not_mem place hfree]
      exact enter_split place t s.requests⟩

end Sys2Proof.Machine

/-! SUPPORT. Runs of steps: every step answers a next state and takes the first transaction in flight, so each transaction has its
turn and is then answered from its request alone (20_memory.md R49, 70_reset_and_hazards.md R195 (e); log entries 1 and 11). -/

namespace Sys2Proof.Machine

/-- A step refuses a request with a reserved word (30_encoding.md R65). -/
theorem step_of_not_wellFormed {s : State} {t : Transaction} {rest : List Transaction} (hreq : s.requests = t :: rest)
    (ht : t.request.cmd.wellFormed = false) :
    ∃ why, transact t.request = none ∧ step s = .next
      { requests := rest
        response := none
        refused := s.refused ++ [{ caller := t.caller, why := why }]
        draws := s.draws + 1 } := by
  obtain ⟨why, hd⟩ := decode_error_of_not_wellFormed ht
  exact ⟨why, transact_reserved hd, by rw [step_reserved hreq hd, refuse_cons why hreq]⟩

/-- A step answers an admitted request with `Exec` of it. -/
theorem step_of_wellFormed {s : State} {t : Transaction} {rest : List Transaction} (hreq : s.requests = t :: rest)
    (ht : t.request.cmd.wellFormed = true) :
    ∃ r, transact t.request = some r ∧ step s = .next
      { requests := rest
        response := some { caller := t.caller, response := r }
        refused := s.refused
        draws := s.draws + 1 } := by
  obtain ⟨r, htransact, hstep⟩ := responseDependsOnTheRequestAlone t.request ht
  exact ⟨r, htransact, hstep s t rest hreq rfl⟩

/-- Every step answers a next state, from which the first transaction is gone, and refuses nothing where every word is
admitted. -/
theorem step_next (s : State) :
    ∃ s', step s = .next s' ∧ s'.requests = s.requests.drop 1 ∧ (s.Conforming → s'.refused = s.refused) := by
  cases hreq : s.requests with
  | nil => exact ⟨s.idle, step_nil hreq, hreq, fun _ => rfl⟩
  | cons t rest =>
    cases ht : t.request.cmd.wellFormed with
    | true =>
      obtain ⟨r, -, hstep⟩ := step_of_wellFormed hreq ht
      exact ⟨_, hstep, rfl, fun _ => rfl⟩
    | false =>
      obtain ⟨why, -, hstep⟩ := step_of_not_wellFormed hreq ht
      refine ⟨_, hstep, rfl, fun hconf => ?_⟩
      simp [hconf t (by simp [hreq])] at ht

theorem run_succ {s s' : State} (k : Nat) (h : step s = .next s') : run (k + 1) s = run k s' := by
  rw [run, h]

/-- The last step of a run. -/
theorem run_succ_last {k : Nat} {s s' : State} (h : run k s = .next s') : run (k + 1) s = step s' := by
  induction k generalizing s with
  | zero =>
    cases h
    obtain ⟨s₁, hstep, -⟩ := step_next s'
    rw [run_succ 0 hstep, hstep, run]
  | succ k ih =>
    obtain ⟨s₁, hstep, -⟩ := step_next s
    rw [run_succ _ hstep] at h ⊢
    exact ih h

/-- A run goes on for ever, takes one transaction at each step, and refuses nothing where every word is admitted. -/
theorem run_next (n : Nat) (s : State) :
    ∃ s', run n s = .next s' ∧ s'.requests = s.requests.drop n ∧ (s.Conforming → s'.refused = s.refused) := by
  induction n generalizing s with
  | zero => exact ⟨s, rfl, rfl, fun _ => rfl⟩
  | succ n ih =>
    obtain ⟨s₁, hstep, hreq₁, href₁⟩ := step_next s
    obtain ⟨s', hrun, hreq, href⟩ := ih s₁
    refine ⟨s', (run_succ n hstep).trans hrun, by rw [hreq, hreq₁, List.drop_drop, Nat.add_comm], fun hconf => ?_⟩
    have hconf₁ : s₁.Conforming := fun t ht => hconf t (List.mem_of_mem_drop (hreq₁ ▸ ht))
    rw [href hconf₁, href₁ hconf]

/-- After k steps transaction number k has its turn. -/
theorem run_turn {s : State} {k : Nat} {t : Transaction} (ht : s.requests[k]? = some t) :
    ∃ s', run k s = .next s' ∧ s'.requests = t :: s.requests.drop (k + 1) := by
  obtain ⟨s', hrun, hreq, -⟩ := run_next k s
  obtain ⟨hk, rfl⟩ := List.getElem?_eq_some_iff.1 ht
  exact ⟨s', hrun, hreq.trans (List.drop_eq_getElem_cons hk)⟩

/-- Settles O48: a run takes the transactions one by one, and what the step does with the one whose turn it is depends on its
request alone. -/
theorem eachConcurrentTransactionGetsItsOwnExec : Obligations.EachConcurrentTransactionGetsItsOwnExec := by
  refine fun s => ⟨fun n => ?_, fun k t ht => ?_⟩
  · obtain ⟨s', hrun, -, href⟩ := run_next n s
    exact ⟨s', hrun, href⟩
  · obtain ⟨s₁, hrun, hreq⟩ := run_turn ht
    rw [run_succ_last hrun]
    cases hw : t.request.cmd.wellFormed with
    | true =>
      obtain ⟨r, htransact, hstep⟩ := step_of_wellFormed hreq hw
      exact ⟨_, hstep, rfl, fun _ => ⟨r, htransact, rfl⟩, nofun⟩
    | false =>
      obtain ⟨why, htransact, hstep⟩ := step_of_not_wellFormed hreq hw
      exact ⟨_, hstep, rfl, nofun, fun _ => ⟨htransact, rfl, why, by simp⟩⟩

/-- An admitted transaction in flight gets `Exec` of its request at some step of the run. -/
theorem run_answers {s : State} {t : Transaction} (hmem : t ∈ s.requests) (ht : t.request.cmd.wellFormed = true) :
    ∃ (k : Nat) (s' : State) (r : Response), run k s = .next s' ∧ transact t.request = some r ∧
      s'.response = some { caller := t.caller, response := r } := by
  obtain ⟨k, hk⟩ := List.mem_iff_getElem?.1 hmem
  obtain ⟨s', hrun, -, hadmitted, -⟩ := (eachConcurrentTransactionGetsItsOwnExec s).2 k t hk
  obtain ⟨r, htransact, hresp⟩ := hadmitted ht
  exact ⟨k + 1, s', r, hrun, htransact, hresp⟩

/-- Settles O49: in both orders the transaction is in flight, and gets `Exec` of its request. -/
theorem interleavingChangesNoResponse : Obligations.InterleavingChangesNoResponse := by
  intro s₁ s₂ t hperm hmem ht
  obtain ⟨k₁, s₁', r₁, hrun₁, htransact₁, hresp₁⟩ := run_answers hmem ht
  obtain ⟨k₂, s₂', r₂, hrun₂, htransact₂, hresp₂⟩ := run_answers (hperm.mem_iff.1 hmem) ht
  have hr : r₁ = r₂ := Option.some.inj (htransact₁.symm.trans htransact₂)
  exact ⟨k₁, k₂, s₁', s₂', hrun₁, hrun₂, by simp [hresp₁], by simp [hresp₁, htransact₁], by rw [hresp₁, hresp₂, hr]⟩

/-- With nothing in flight a run advances the model's own counter and nothing else (log entry 5). -/
theorem run_of_idle {s : State} (hreq : s.requests = []) (hresp : s.response = none) (k : Nat) :
    run k s = .next { s with draws := s.draws + k } := by
  induction k with
  | zero => rfl
  | succ k ih =>
    rw [run_succ_last ih, step_nil (by exact hreq), State.idle, hresp, Nat.add_assoc]

/-- Settles O57: after reset a run idles, and then the first request issued is the first in flight. -/
theorem resetAbandonsTransactionsInFlight : Obligations.ResetAbandonsTransactionsInFlight := by
  intro s k
  refine ⟨_, run_of_idle rfl rfl k, rfl, rfl, rfl, fun t ht => ?_⟩
  have hreq : (State.issue 0 t { s.assertReset with draws := s.assertReset.draws + k }).requests = [t] := by
    rw [State.issue_of_not_mem 0 (by simp [State.callers])]
    rfl
  obtain ⟨r, htransact, hstep⟩ := step_of_wellFormed hreq ht
  exact ⟨r, _, htransact, hstep, rfl, rfl⟩

/-! Transactions among events: what others present and give up does not keep a transaction from its turn for ever. -/

theorem runEvents_cons {s s' : State} {e : Event} (es : List Event) (h : happen s e = .next s') :
    runEvents (e :: es) s = runEvents es s' := by
  rw [runEvents, h]

/-- A transaction that another overtakes falls back one place and loses one of its patience, so that the sum of the two
stays as it was (log entry 15). -/
theorem enter_keeps_turn {ts : List Transaction} {k : Nat} {t : Transaction} (place : Nat) (u : Transaction)
    (ht : ts[k]? = some t) :
    ∃ k' t', (enter place u ts)[k']? = some t' ∧ t'.caller = t.caller ∧ t'.request = t.request ∧
      k' + t'.patience = k + t.patience := by
  obtain ⟨p, -, hfree, henter⟩ := enter_shape place u ts
  obtain ⟨hk, -⟩ := List.getElem?_eq_some_iff.1 ht
  rw [henter]
  by_cases hp : k < p
  · refine ⟨k, t, ?_, rfl, rfl, rfl⟩
    rw [List.getElem?_append_left (by rw [List.length_take]; omega), List.getElem?_take_of_lt hp, ht]
  · have hpatience : t.patience ≠ 0 := patience_behind_firstFreePlace ts k t ht (by omega)
    have hlen : (ts.take p).length = p := by rw [List.length_take]; omega
    refine ⟨k + 1, t.overtaken, ?_, rfl, rfl, by rw [Transaction.overtaken_patience]; omega⟩
    rw [List.getElem?_append_right (by omega), hlen, show k + 1 - p = k - p + 1 by omega, List.getElem?_cons_succ,
      List.getElem?_map, List.getElem?_drop, show p + (k - p) = k by omega, ht]
    rfl

/-- The same of a request presented: one that has to wait for its caller's other one changes nothing. -/
theorem issue_keeps_turn {s : State} {k : Nat} {t : Transaction} (place : Nat) (u : Transaction)
    (ht : s.requests[k]? = some t) :
    ∃ k' t', (s.issue place u).requests[k']? = some t' ∧ t'.caller = t.caller ∧ t'.request = t.request ∧
      k' + t'.patience = k + t.patience := by
  by_cases hmem : u.caller ∈ s.callers
  · rw [State.issue_of_mem place hmem]
    exact ⟨k, t, ht, rfl, rfl, rfl⟩
  · rw [State.issue_of_not_mem place hmem]
    exact enter_keeps_turn place u ht

/-- Every event but reset and its own turn leaves a transaction in flight, and each step brings its turn one step
nearer. -/
theorem happen_keeps_turn {s : State} {k : Nat} {t : Transaction} {e : Event} (ht : s.requests[k]? = some t)
    (hreset : e ≠ .assertReset) (hturn : e = .step → k ≠ 0) :
    ∃ s' k' t', happen s e = .next s' ∧ s'.requests[k']? = some t' ∧ t'.caller = t.caller ∧ t'.request = t.request ∧
      k' + t'.patience + [e].count .step = k + t.patience := by
  cases e with
  | step =>
    obtain ⟨s', hstep, hreq, -⟩ := step_next s
    obtain ⟨j, rfl⟩ := Nat.exists_eq_succ_of_ne_zero (hturn rfl)
    refine ⟨s', j, t, hstep, ?_, rfl, rfl, ?_⟩
    · rw [hreq, List.getElem?_drop, Nat.add_comm, ht]
    · rw [List.count_singleton_self]
      omega
  | present place u =>
    obtain ⟨k', t', ht', hcaller, hrequest, hsum⟩ := issue_keeps_turn place u ht
    exact ⟨_, k', t', rfl, ht', hcaller, hrequest, hsum⟩
  | giveUp c => exact ⟨_, k, t, rfl, ht, rfl, rfl, rfl⟩
  | assertReset => exact absurd rfl hreset

/-- Settles O59: by induction on the events, place and patience together count the steps until the turn. -/
theorem everyAdmittedTransactionIsAnsweredInTime : Obligations.EveryAdmittedTransactionIsAnsweredInTime := by
  intro s k t events ht hw hreset hcount
  induction events generalizing s k t with
  | nil => simp at hcount
  | cons e es ih =>
    by_cases hturn : e = .step ∧ k = 0
    · obtain ⟨rfl, rfl⟩ := hturn
      obtain ⟨rest, hreq⟩ : ∃ rest, s.requests = t :: rest := List.head?_eq_some_iff.1 (List.head?_eq_getElem? ▸ ht)
      obtain ⟨r, htransact, hstep⟩ := step_of_wellFormed hreq hw
      exact ⟨[], es, _, r, rfl, Nat.zero_le _, runEvents_cons [] hstep, htransact, rfl⟩
    · rw [List.mem_cons, not_or] at hreset
      obtain ⟨s₁, k₁, t₁, hhappen, ht₁, hcaller, hrequest, hsum⟩ :=
        happen_keeps_turn ht (Ne.symm hreset.1) (not_and.1 hturn)
      rw [← List.singleton_append, List.count_append] at hcount
      obtain ⟨before, after, s', r, rfl, hbefore, hrun, htransact, hresp⟩ :=
        ih s₁ k₁ t₁ ht₁ (hrequest ▸ hw) hreset.2 (by omega)
      refine ⟨e :: before, after, s', r, rfl, ?_, (runEvents_cons _ hhappen).trans hrun, hrequest ▸ htransact,
        hcaller ▸ hresp⟩
      rw [← List.singleton_append, List.count_append]
      omega

end Sys2Proof.Machine

/-! SUPPORT. The byte-level reference algorithms of the Byte View, the Logic, the Shift/Rotate and the Counting Unit against the
result rules (40_byteview.md, 41_logic.md R94, 42_shift.md R105 and R106, 43_count.md R125). -/

namespace Sys2Proof.Machine

section
variable {n : Nat}

/-- A pattern is fixed by its bytes. -/
theorem fromBytes_eq_of_bytes {bs : Bytes n} {v : BitVec (8 * n)}
    (h : ∀ i (hi : i < n), bs[i] = v.extractLsb' (8 * i) 8) : fromBytes bs = v := by
  refine BitVec.eq_of_getLsbD_eq fun j hj => ?_
  rw [fromBytes_getLsbD bs j hj, h, BitVec.getLsbD_extractLsb', Nat.div_add_mod]
  simp [Nat.mod_lt]

theorem fromBytes_toBytes (v : BitVec (8 * n)) : fromBytes (toBytes v) = v :=
  fromBytes_eq_of_bytes (toBytes_getElem v)

theorem toBytes_fromBytes (bs : Bytes n) : toBytes (fromBytes bs) = bs := by
  ext i hi j hj
  have hbit : 8 * i + j < 8 * n := by omega
  have hdiv : (8 * i + j) / 8 = i := by omega
  have hmod : (8 * i + j) % 8 = j := by omega
  simp [fromBytes_getLsbD bs _ hbit, hdiv, hmod, hj]

end

/-- Settles O29: bit j of the pattern is bit j mod 8 of byte j div 8, both ways. -/
theorem byteViewConversionsAreMutualInverses : Obligations.ByteViewConversionsAreMutualInverses := fun _ =>
  ⟨fromBytes_toBytes, toBytes_fromBytes⟩

/-- Settles O30: the bytes placed in their lanes are the value they came from. -/
theorem byteViewCommandsLeaveTheBusPattern : Obligations.ByteViewCommandsLeaveTheBusPattern := by
  intro w sg s t rest hreq
  have hbytes : bytesResponse (t.request.lanesA w.bytes) = valueResponse (t.request.valueA w) := by
    rw [← toBytes_valueA, ← valueResponse_fromBytes, fromBytes_toBytes]
  exact ⟨exec_response (exec_ebmToBytes_lanes w sg) hreq hbytes,
    exec_response (exec_ebmFromBytes_lanes w sg) hreq hbytes⟩

/-! Logic, byte by byte. -/

/-- A bytewise loop gives a pattern whose bytes are those that the operator makes of the operands' bytes. -/
theorem bytewise_eq {n : Nat} {f : Byte → Byte → Byte} {a b r : BitVec (8 * n)}
    (h : ∀ start, f (a.extractLsb' start 8) (b.extractLsb' start 8) = r.extractLsb' start 8) : bytewise f a b = r :=
  fromBytes_eq_of_bytes fun i hi => by
    rw [Vector.getElem_zipWith, toBytes_getElem, toBytes_getElem, h]

theorem bytewiseNot_eq {n : Nat} (a : BitVec (8 * n)) : bytewiseNot a = ~~~a :=
  fromBytes_eq_of_bytes fun i hi => by
    ext j hj
    have hbit : 8 * i + j < 8 * n := by omega
    simp [hbit]

/-- Settles O31: cutting a byte out of the operands distributes over each connective. -/
theorem bytewiseLogicEqualsBitwiseLogic : Obligations.BytewiseLogicEqualsBitwiseLogic := fun _ a _ =>
  ⟨bytewise_eq fun _ => BitVec.extractLsb'_and.symm, bytewise_eq fun _ => BitVec.extractLsb'_or.symm,
    bytewise_eq fun _ => BitVec.extractLsb'_xor.symm, bytewiseNot_eq a⟩

/-! Shifts by whole bytes and by a rest of less than eight bits. -/

section
variable {n : Nat} (a : BitVec (8 * n))

/-- Bit b of byte m of a, where a has no bit outside 0..W-1. -/
theorem byteOrZero_testBit (m : Int) (b : Nat) :
    (byteOrZero (toBytes a) m).toNat.testBit b = (decide (0 ≤ m ∧ b < 8) && a.getLsbD (8 * m.toNat + b)) := by
  rw [BitVec.testBit_toNat, byteOrZero]
  by_cases hm : 0 ≤ m
  · rw [if_pos hm]
    by_cases hn : m.toNat < n
    · rw [List.getD_eq_getElem _ _ (by simpa), Vector.getElem_toList, toBytes_getElem]
      simp [hm]
    · rw [List.getD_eq_default _ _ (by simpa using hn), BitVec.getLsbD_of_ge a _ (by omega)]
      simp
  · simp [hm]

variable (i k j : Nat) (hj : j < 8)
include hj

/-- Bit j of the byte that R105 puts at place i of a left shift is bit 8i+j of the shift: it comes from the higher of two
neighbouring bytes exactly if j is at least the sub-byte amount. -/
theorem leftShiftByte_testBit :
    ((byteOrZero (toBytes a) (i - (k / 8 : Int))).toNat <<< (k % 8) ||| (if k % 8 = 0 then 0 else
      (byteOrZero (toBytes a) (i - (k / 8 : Int) - 1)).toNat >>> (8 - k % 8))).testBit j =
      (decide (k ≤ 8 * i + j) && a.getLsbD (8 * i + j - k)) := by
  rw [Nat.testBit_or, Nat.testBit_shiftLeft, apply_ite (Nat.testBit · j), Nat.testBit_shiftRight, byteOrZero_testBit,
    byteOrZero_testBit]
  by_cases hs : k % 8 ≤ j
  · have hhigh : ¬ 8 - k % 8 + j < 8 := by omega
    have hlow : j - k % 8 < 8 := by omega
    by_cases hk : k ≤ 8 * i + j
    · have hpos : 8 * (i - (k / 8 : Int)).toNat + (j - k % 8) = 8 * i + j - k := by omega
      have hq : 0 ≤ i - (k / 8 : Int) := by omega
      simp only [hs, hhigh, hlow, hk, hpos, hq]
      simp
    · have hq : ¬ 0 ≤ i - (k / 8 : Int) := by omega
      simp only [hs, hhigh, hk, hq]
      simp
  · have hzero : k % 8 ≠ 0 := by omega
    have hlow : 8 - k % 8 + j < 8 := by omega
    by_cases hk : k ≤ 8 * i + j
    · have hpos : 8 * (i - (k / 8 : Int) - 1).toNat + (8 - k % 8 + j) = 8 * i + j - k := by omega
      have hq : 0 ≤ i - (k / 8 : Int) - 1 := by omega
      simp only [hs, hzero, hlow, hk, hpos, hq]
      simp
    · have hq : ¬ 0 ≤ i - (k / 8 : Int) - 1 := by omega
      simp only [hs, hzero, hk, hq]
      simp

/-- The same of a right shift, whose byte comes from the higher of two neighbours where the sub-byte amount leads past
bit 7. -/
theorem rightShiftByte_testBit :
    ((byteOrZero (toBytes a) (i + (k / 8 : Int))).toNat >>> (k % 8) ||| (if k % 8 = 0 then 0 else
      (byteOrZero (toBytes a) (i + (k / 8 : Int) + 1)).toNat <<< (8 - k % 8))).testBit j =
      a.getLsbD (k + (8 * i + j)) := by
  rw [Nat.testBit_or, Nat.testBit_shiftRight, apply_ite (Nat.testBit · j), Nat.testBit_shiftLeft, byteOrZero_testBit,
    byteOrZero_testBit]
  by_cases hs : k % 8 + j < 8
  · have hlow : ¬ 8 - k % 8 ≤ j := by omega
    have hpos : 8 * (i + (k / 8 : Int)).toNat + (k % 8 + j) = k + (8 * i + j) := by omega
    have hq : 0 ≤ i + (k / 8 : Int) := by omega
    simp only [hs, hlow, hpos, hq]
    simp
  · have hzero : k % 8 ≠ 0 := by omega
    have hhigh : 8 - k % 8 ≤ j := by omega
    have hlow : j - (8 - k % 8) < 8 := by omega
    have hpos : 8 * (i + (k / 8 : Int) + 1).toNat + (j - (8 - k % 8)) = k + (8 * i + j) := by omega
    have hq : 0 ≤ i + (k / 8 : Int) + 1 := by omega
    simp only [hs, hzero, hhigh, hlow, hpos, hq]
    simp

end

/-- Settles O32: a shift by W or more is zero both ways; below that each byte has the bits that the shift has there. -/
theorem byteDecomposedShiftsEqualTheShifts : Obligations.ByteDecomposedShiftsEqualTheShifts := by
  intro n a k
  rw [leftShift_eq_shiftLeft, rightShift_eq_ushiftRight, leftShiftBytes, rightShiftBytes]
  split
  next hk => exact ⟨(BitVec.shiftLeft_eq_zero hk).symm, (BitVec.ushiftRight_eq_zero hk).symm⟩
  next =>
    constructor
    · refine fromBytes_eq_of_bytes fun i hi => BitVec.eq_of_getLsbD_eq fun j hj => ?_
      have hbit : 8 * i + j < 8 * n := by omega
      rw [Vector.getElem_ofFn, BitVec.getLsbD_ofNat, leftShiftByte_testBit a i k j hj, BitVec.getLsbD_extractLsb',
        BitVec.getLsbD_shiftLeft]
      simp [hbit, hj, ← decide_not]
    · refine fromBytes_eq_of_bytes fun i hi => BitVec.eq_of_getLsbD_eq fun j hj => ?_
      rw [Vector.getElem_ofFn, BitVec.getLsbD_ofNat, rightShiftByte_testBit a i k j hj, BitVec.getLsbD_extractLsb',
        BitVec.getLsbD_ushiftRight]

/-- Settles O33: the library's rotates are by definition the OR of the two shifts. -/
theorem rotatesAreTheOrOfTwoShifts : Obligations.RotatesAreTheOrOfTwoShifts := by
  intro W a k _
  constructor
  · rw [rotateLeft_eq_bitVecRotateLeft, BitVec.rotateLeft_def, rotateLeftByShifts, leftShift_eq_shiftLeft,
      rightShift_eq_ushiftRight]
  · rw [rotateRight_eq_bitVecRotateRight, BitVec.rotateRight_def, rotateRightByShifts, leftShift_eq_shiftLeft,
      rightShift_eq_ushiftRight]

/-- The positions that a rotate reads are all positions, each once. -/
theorem map_add_mod_range_perm (W k : Nat) : ((List.range W).map fun i => (i + k) % W).Perm (List.range W) := by
  have hrotate : ((List.range W).map fun i => (i + k) % W) = (List.range W).rotate k :=
    List.ext_getElem (by simp) fun i _ _ => by simp [List.getElem_rotate]
  exact hrotate ▸ List.rotate_perm ..

theorem populationCount_rotateRight {n : Nat} (a : BitVec (8 * n)) (k : Nat) :
    populationCount (rotateRight a k) = populationCount a := by
  rw [populationCount_eq_countP, populationCount_eq_countP]
  calc (List.range (8 * n)).countP (rotateRight a k).getLsbD
    _ = (List.range (8 * n)).countP (a.getLsbD ∘ fun i => (i + k) % (8 * n)) :=
      List.countP_congr fun i hi => by rw [rotateRight_getLsbD a k (List.mem_range.1 hi), Function.comp_apply]
    _ = ((List.range (8 * n)).map fun i => (i + k) % (8 * n)).countP a.getLsbD := List.countP_map.symm
    _ = (List.range (8 * n)).countP a.getLsbD := (map_add_mod_range_perm _ k).countP_eq _

/-- A rotate reduces its amount modulo W (42_shift.md R100). -/
theorem rotateRight_congr {W : Nat} (a : BitVec W) {k k' : Nat} (h : k % W = k' % W) :
    rotateRight a k = rotateRight a k' := by
  simp only [rotateRight_eq_bitVecRotateRight, BitVec.rotateRight_def, h]

/-- The complement of the complement amount is the amount. -/
theorem rotateRight_eq_rotateLeft {W : Nat} (a : BitVec W) (k : Nat) :
    rotateRight a k = rotateLeft a ((W - k % W) % W) := by
  obtain rfl | hW := Nat.eq_zero_or_pos W
  · exact Subsingleton.elim _ _
  rw [rotateLeft_eq_rotateRight, Nat.mod_mod]
  refine rotateRight_congr a ?_
  by_cases hj : k % W = 0
  · simp [hj]
  · have hlt : k % W < W := Nat.mod_lt k hW
    rw [Nat.mod_eq_of_lt (show W - k % W < W by omega), Nat.sub_sub_self hlt.le, Nat.mod_mod]

/-- Settles O35: each rotate reads every position once, and a rotate left is a rotate right. -/
theorem rotatesLoseNoBit : Obligations.RotatesLoseNoBit := fun _ a k =>
  ⟨rotateLeft_eq_rotateRight a k ▸ populationCount_rotateRight a _, populationCount_rotateRight a k,
    rotateRight_eq_rotateLeft a k⟩

/-! Counts by a scan of the bytes. -/

namespace IsRun

variable {v : Bool} {m c : Nat} {bit : Nat → Bool}

/-- A run that ends before position m ends there whatever follows. -/
theorem of_ends (h : IsRun v m bit c) (hc : c < m) (k : Nat) : IsRun v (m + k) bit c where
  le := h.le.trans (Nat.le_add_right m k)
  inside := h.inside
  next _ := h.next hc

/-- First bits that are all equal to v lengthen the run of the bits after it. -/
theorem of_first_all_eq {k : Nat} (h : ∀ i, i < k → bit i = v) (hrest : IsRun v m (fun i => bit (k + i)) c) :
    IsRun v (k + m) bit (k + c) where
  le := Nat.add_le_add_left hrest.le k
  inside i hi := by
    by_cases hk : i < k
    · exact h i hk
    · rw [← Nat.add_sub_cancel' (Nat.le_of_not_lt hk)]
      exact hrest.inside _ (by omega)
  next hc := hrest.next (Nat.lt_of_add_lt_add_left hc)

end IsRun

/-- The scan of 43_count.md R125 measures a run of v: `bit x` numbers the bits of a byte x from the end at which the scan
begins, `uniform` is the byte of eight bits v, and `last` measures the run within one byte. -/
theorem isRun_scanBytes {v : Bool} {uniform : Byte} {last : Byte → Nat} {bit : Byte → Nat → Bool}
    (huniform : ∀ x, x = uniform ↔ ∀ j, j < 8 → bit x j = v) (hlast : ∀ x, IsRun v 8 (bit x) (last x)) (xs : List Byte) :
    IsRun v (8 * xs.length) (fun j => bit (xs.getD (j / 8) 0#8) (j % 8)) (scanBytes uniform last xs) := by
  induction xs with
  | nil => exact .of_all_eq (by simp)
  | cons x xs ih =>
    have hx : ∀ j, j < 8 → bit ((x :: xs).getD (j / 8) 0#8) (j % 8) = bit x j := fun j hj => by
      rw [Nat.div_eq_of_lt hj, Nat.mod_eq_of_lt hj, List.getD_cons_zero]
    rw [List.length_cons, Nat.mul_succ, Nat.add_comm, scanBytes]
    split
    next h =>
      refine .of_first_all_eq (fun j hj => (hx j hj).trans ((huniform x).1 h j hj)) (ih.congr fun j _ => ?_)
      rw [Nat.add_div_left j (by decide), Nat.add_mod_left, List.getD_cons_succ]
    next h =>
      have hrun : IsRun v 8 (fun j => bit ((x :: xs).getD (j / 8) 0#8) (j % 8)) (last x) := (hlast x).congr hx
      refine hrun.of_ends (Nat.lt_of_le_of_ne hrun.le fun hall => h ((huniform x).2 fun j hj => ?_)) _
      exact (hlast x).inside j (hall ▸ hj)

/-- The byte all of whose bits are v. -/
def uniformByte (v : Bool) : Byte := if v then 0xFF#8 else 0x00#8

theorem uniformByte_getLsbD (v : Bool) : ∀ j, j < 8 → (uniformByte v).getLsbD j = v := by
  cases v <;> decide

theorem eq_uniformByte_iff (v : Bool) (x : Byte) : x = uniformByte v ↔ ∀ j, j < 8 → x.getLsbD j = v := by
  constructor
  · rintro rfl
    exact uniformByte_getLsbD v
  · exact fun h => BitVec.eq_of_getLsbD_eq fun j hj => (h j hj).trans (uniformByte_getLsbD v j hj).symm

theorem eq_uniformByte_iff_fromTop (v : Bool) (x : Byte) :
    x = uniformByte v ↔ ∀ j, j < 8 → x.getLsbD (8 - 1 - j) = v := by
  rw [eq_uniformByte_iff]
  constructor
  · exact fun h j _ => h _ (by omega)
  · intro h j hj
    rw [show j = 8 - 1 - (7 - j) by omega]
    exact h _ (by omega)

section
variable {n : Nat} (v : Bool) (a : BitVec (8 * n))

theorem getLsbD_toBytes_getD (j : Nat) : ((toBytes a).toList.getD (j / 8) 0#8).getLsbD (j % 8) = a.getLsbD j := by
  by_cases hj : j / 8 < n
  · rw [List.getD_eq_getElem _ _ (by simpa), Vector.getElem_toList, toBytes_getElem, BitVec.getLsbD_extractLsb',
      Nat.div_add_mod]
    simp [Nat.mod_lt]
  · rw [List.getD_eq_default _ _ (by simpa using hj), BitVec.getLsbD_of_ge a j (by omega), BitVec.getLsbD_zero]

theorem getLsbD_toBytes_reverse_getD {j : Nat} (hj : j < 8 * n) :
    ((toBytes a).toList.reverse.getD (j / 8) 0#8).getLsbD (8 - 1 - j % 8) = a.getLsbD (8 * n - 1 - j) := by
  rw [← getLsbD_toBytes_getD a (8 * n - 1 - j), List.getD_reverse _ (by simp; omega), Vector.length_toList,
    show n - 1 - j / 8 = (8 * n - 1 - j) / 8 by omega, show 8 - 1 - j % 8 = (8 * n - 1 - j) % 8 by omega]

/-- The scan from byte 0 up measures the run from bit 0 up. -/
theorem scanBytes_eq_runUp :
    scanBytes (uniformByte v) (fun x => runUp v x 0 8) (toBytes a).toList = runUp v a 0 (8 * n) := by
  have hscan := isRun_scanBytes (eq_uniformByte_iff v) (isRun_runUp_zero v) (toBytes a).toList
  rw [Vector.length_toList] at hscan
  exact hscan.unique ((isRun_runUp_zero v a).congr fun j _ => getLsbD_toBytes_getD a j)

/-- The scan from the top byte down measures the run from bit W-1 down. -/
theorem scanBytes_reverse_eq_runDown :
    scanBytes (uniformByte v) (fun x => runDown v x 8) (toBytes a).toList.reverse = runDown v a (8 * n) := by
  have hscan := isRun_scanBytes (eq_uniformByte_iff_fromTop v) (fun x => isRun_runDown v x 8) (toBytes a).toList.reverse
  rw [List.length_reverse, Vector.length_toList] at hscan
  exact hscan.unique ((isRun_runDown v a (8 * n)).congr fun j hj => getLsbD_toBytes_reverse_getD a hj)

end

/-- Settles O36: each scan measures the run of equal bits that the count measures. -/
theorem byteScansEqualTheBitCounts : Obligations.ByteScansEqualTheBitCounts := fun _ a =>
  ⟨scanBytes_reverse_eq_runDown false a, scanBytes_eq_runUp false a, scanBytes_reverse_eq_runDown true a,
    scanBytes_eq_runUp true a⟩

end Sys2Proof.Machine

/-! SUPPORT. The Arithmetic Unit is the library's modular arithmetic (44_arith.md R141 to R145, R150 to R152), and the byte-level
adder, subtractor and multiplier and the restoring divider compute it (R146 to R149). -/

namespace Sys2Proof.Machine

section
variable {W : Nat} (a b : BitVec W)

theorem add_eq_bitVecAdd : add a b = a + b := BitVec.eq_of_toNat_eq (by simp)

theorem multiply_eq_bitVecMul : multiply a b = a * b := BitVec.eq_of_toNat_eq (by simp)

/-- Subtraction modulo 2^W of integers. -/
theorem bitVec_ofInt_sub (W : Nat) (x y : Int) : BitVec.ofInt W (x - y) = BitVec.ofInt W x - BitVec.ofInt W y := by
  rw [Int.sub_eq_add_neg, BitVec.ofInt_add, BitVec.ofInt_neg, BitVec.sub_eq_add_neg]

theorem subtract_eq_bitVecSub : subtract a b = a - b := by
  rw [subtract, bitVec_ofInt_sub, BitVec.ofInt_natCast, BitVec.ofInt_natCast, BitVec.ofNat_toNat, BitVec.ofNat_toNat,
    BitVec.setWidth_eq, BitVec.setWidth_eq]

end

/-- Settles O43: modulo 2^W the signed and the unsigned reading of a pattern agree. -/
theorem signedArithmeticReusesTheUnsignedPatterns : Obligations.SignedArithmeticReusesTheUnsignedPatterns := by
  intro W a b
  refine ⟨?_, ?_, ?_, fun hb => ⟨divide_of_ne_zero a hb, modulo_of_ne_zero a hb⟩⟩
  · rw [add_eq_bitVecAdd, BitVec.ofInt_add, BitVec.ofInt_toInt, BitVec.ofInt_toInt]
  · rw [subtract_eq_bitVecSub, bitVec_ofInt_sub, BitVec.ofInt_toInt, BitVec.ofInt_toInt]
  · rw [multiply_eq_bitVecMul, BitVec.ofInt_mul, BitVec.ofInt_toInt, BitVec.ofInt_toInt]

/-- Settles O44: unsigned division with remainder. -/
theorem quotientAndRemainderRebuildTheDividend : Obligations.QuotientAndRemainderRebuildTheDividend := by
  intro W a b hb
  refine ⟨a / b, a % b, divide_of_ne_zero a hb, modulo_of_ne_zero a hb, ?_, ?_⟩
  · rw [BitVec.toNat_udiv, BitVec.toNat_umod, Nat.div_add_mod']
  · rw [BitVec.toNat_umod]
    exact Nat.mod_lt _ (Nat.pos_of_ne_zero hb)

/-- Settles O45: the laws of the library's modular arithmetic; a width of 0 is left out because it has no 1. -/
theorem arithmeticLaws : Obligations.ArithmeticLaws := by
  intro W a b hW
  have hone : (1#W).toNat ≠ 0 := by rw [BitVec.toNat_one hW]; decide
  simp only [add_eq_bitVecAdd, subtract_eq_bitVecSub, multiply_eq_bitVecMul, divide_of_ne_zero a hone]
  exact ⟨BitVec.add_zero a, BitVec.add_comm a b, BitVec.add_sub_cancel a b, BitVec.mul_zero,
    congrArg _ BitVec.udiv_one, divide_of_eq_zero a BitVec.toNat_zero, modulo_of_eq_zero a BitVec.toNat_zero⟩

/-! Bytes as the digits of a number in base 256. -/

/-- The number that the bytes stand for, byte 0 lowest (20_memory.md R41). -/
def bytesValue (bs : List Byte) : Nat := Nat.ofDigits 256 (bs.map BitVec.toNat)

@[simp] theorem bytesValue_nil : bytesValue [] = 0 := rfl

@[simp] theorem bytesValue_cons (x : Byte) (xs : List Byte) : bytesValue (x :: xs) = x.toNat + 256 * bytesValue xs :=
  Nat.ofDigits_cons ..

theorem bytesValue_lt (bs : List Byte) : bytesValue bs < 256 ^ bs.length := by
  have hdigits : ∀ d ∈ bs.map BitVec.toNat, d < 256 := fun d hd => by
    obtain ⟨x, -, rfl⟩ := List.mem_map.1 hd
    exact x.isLt
  simpa [bytesValue] using Nat.ofDigits_lt_base_pow_length (by decide) hdigits

@[simp] theorem bytesValue_replicate_zero (n : Nat) : bytesValue (List.replicate n 0#8) = 0 := by
  induction n with
  | zero => rfl
  | succ n ih => rw [List.replicate_succ, bytesValue_cons, ih]; rfl

/-- Bytes placed side by side are the number that they stand for: what is shifted up does not meet the byte below. -/
theorem concatBytes_eq_ofNat (W : Nat) (bs : List Byte) : concatBytes W bs = BitVec.ofNat W (bytesValue bs) := by
  induction bs with
  | nil => rfl
  | cons x xs ih =>
    have hdisjoint : concatBytes W xs <<< 8 &&& x.setWidth W = 0#W := by
      ext j hj
      by_cases h8 : j < 8
      · simp [h8]
      · simp [BitVec.getLsbD_of_ge x j (by omega)]
    rw [concatBytes_cons, ← BitVec.add_eq_or_of_and_eq_zero _ _ hdisjoint, ih]
    refine BitVec.eq_of_toNat_eq ?_
    simp [Nat.shiftLeft_eq, Nat.add_comm, Nat.mul_comm]

theorem pow_bits (n : Nat) : 2 ^ (8 * n) = 256 ^ n := Nat.pow_mul 2 8 n

/-- The bytes of a value stand for it. -/
theorem bytesValue_toBytes {n : Nat} (a : BitVec (8 * n)) : bytesValue (toBytes a).toList = a.toNat := by
  have hlt : bytesValue (toBytes a).toList < 2 ^ (8 * n) := by simpa [pow_bits] using bytesValue_lt (toBytes a).toList
  have ha := congrArg BitVec.toNat (fromBytes_toBytes a)
  rwa [fromBytes, concatBytes_eq_ofNat, BitVec.toNat_ofNat, Nat.mod_eq_of_lt hlt] at ha

/-- One digit of a sum: what does not fit it goes on to the digits above as a carry. -/
theorem digit_add_modEq {t v u total m : Nat} (htotal : t + 256 * u = total) (h : v ≡ u + t / 256 [MOD 256 ^ m]) :
    (BitVec.ofNat 8 t).toNat + 256 * v ≡ total [MOD 256 ^ (m + 1)] := by
  have hdigit : (BitVec.ofNat 8 t).toNat + 256 * (u + t / 256) = total := by
    rw [BitVec.toNat_ofNat]
    omega
  rw [Nat.pow_succ', ← hdigit]
  exact (h.mul_left' 256).add_left _

theorem rippleAdd_modEq (c : Nat) (xs ys : List Byte) (hlen : xs.length = ys.length) :
    bytesValue (rippleAdd c xs ys) ≡ bytesValue xs + bytesValue ys + c [MOD 256 ^ xs.length] := by
  induction xs generalizing c ys with
  | nil => exact Nat.modEq_one
  | cons x xs ih =>
    obtain ⟨y, ys, rfl⟩ := List.exists_cons_of_length_eq_add_one hlen.symm
    rw [rippleAdd, bytesValue_cons, bytesValue_cons, bytesValue_cons]
    exact digit_add_modEq (by ring) (ih _ ys (Nat.succ.inj hlen))

/-- A number congruent to another modulo 256^n stands for the same pattern of n bytes. -/
theorem ofNat_eq_of_modEq {n v u : Nat} (h : v ≡ u [MOD 256 ^ n]) : BitVec.ofNat (8 * n) v = BitVec.ofNat (8 * n) u :=
  BitVec.eq_of_toNat_eq (by rwa [BitVec.toNat_ofNat, BitVec.toNat_ofNat, pow_bits])

/-- Settles O39: the carries add up to the sum, and the last one is a multiple of 2^W. -/
theorem rippleCarryAdderEqualsAdd : Obligations.RippleCarryAdderEqualsAdd := by
  intro n a b
  have h := rippleAdd_modEq 0 (toBytes a).toList (toBytes b).toList (by simp)
  rw [bytesValue_toBytes, bytesValue_toBytes, Vector.length_toList] at h
  rw [addBytes, concatBytes_eq_ofNat, ofNat_eq_of_modEq h, add, Nat.add_zero]

/-- One digit of a difference, and what it borrows from the digits above. -/
theorem digit_sub_modEq {e brw u total : Int} {v m : Nat} (he : 0 ≤ e) (he' : e < 256)
    (htotal : e - 256 * brw + 256 * u = total) (h : (v : Int) ≡ u - brw [ZMOD 256 ^ m]) :
    ((BitVec.ofInt 8 e).toNat : Int) + 256 * v ≡ total [ZMOD 256 ^ (m + 1)] := by
  have hdigit : ((BitVec.ofInt 8 e).toNat : Int) + 256 * (u - brw) = total := by
    rw [BitVec.toNat_ofInt]
    omega
  rw [pow_succ', ← hdigit]
  exact (h.mul_left' (c := 256)).add_left _

theorem rippleSubtract_modEq (brw : Int) (hbrw : brw = 0 ∨ brw = 1) (xs ys : List Byte) (hlen : xs.length = ys.length) :
    (bytesValue (rippleSubtract brw xs ys) : Int) ≡ bytesValue xs - bytesValue ys - brw [ZMOD 256 ^ xs.length] := by
  induction xs generalizing brw ys with
  | nil => exact Int.modEq_one
  | cons x xs ih =>
    obtain ⟨y, ys, rfl⟩ := List.exists_cons_of_length_eq_add_one hlen.symm
    have hx := x.isLt
    have hy := y.isLt
    rw [rippleSubtract]
    split
    next hneg =>
      rw [bytesValue_cons, bytesValue_cons, bytesValue_cons]
      push_cast
      exact digit_sub_modEq (by omega) (by omega) (by ring) (ih 1 (.inr rfl) ys (Nat.succ.inj hlen))
    next hpos =>
      rw [bytesValue_cons, bytesValue_cons, bytesValue_cons]
      push_cast
      exact digit_sub_modEq (by omega) (by omega) (by ring) (ih 0 (.inl rfl) ys (Nat.succ.inj hlen))

/-- Settles O40: the borrows add up to the difference, and the last one is a multiple of 2^W. -/
theorem rippleBorrowSubtractorEqualsSubtract : Obligations.RippleBorrowSubtractorEqualsSubtract := by
  intro n a b
  have h := rippleSubtract_modEq 0 (.inl rfl) (toBytes a).toList (toBytes b).toList (by simp)
  rw [bytesValue_toBytes, bytesValue_toBytes, Vector.length_toList, Int.sub_zero] at h
  refine BitVec.eq_of_toNat_eq (Int.ofNat_inj.1 ?_)
  rw [subtractBytes, concatBytes_eq_ofNat, BitVec.toNat_ofNat, subtract_toNat]
  push_cast
  have hpow : (2 : Int) ^ (8 * n) = 256 ^ n := pow_mul 2 8 n
  rw [hpow]
  exact h

theorem multiplyRow_length (x : Byte) (c : Nat) (ps ys : List Byte) (hlen : ps.length ≤ ys.length) :
    (multiplyRow x c ps ys).length = ps.length := by
  induction ps generalizing c ys with
  | nil => rfl
  | cons p ps ih =>
    obtain ⟨y, ys, rfl⟩ := List.exists_cons_of_length_pos (Nat.lt_of_lt_of_le (Nat.succ_pos _) hlen)
    rw [multiplyRow, List.length_cons, List.length_cons, ih _ ys (Nat.le_of_succ_le_succ hlen)]

/-- One row adds the multiple x of the other factor to what stands in P. -/
theorem multiplyRow_modEq (x : Byte) (c : Nat) (ps ys : List Byte) (hlen : ps.length ≤ ys.length) :
    bytesValue (multiplyRow x c ps ys) ≡ bytesValue ps + x.toNat * bytesValue ys + c [MOD 256 ^ ps.length] := by
  induction ps generalizing c ys with
  | nil => exact Nat.modEq_one
  | cons p ps ih =>
    obtain ⟨y, ys, rfl⟩ := List.exists_cons_of_length_pos (Nat.lt_of_lt_of_le (Nat.succ_pos _) hlen)
    rw [multiplyRow, bytesValue_cons, bytesValue_cons, bytesValue_cons]
    exact digit_add_modEq (by ring) (ih _ ys (Nat.le_of_succ_le_succ hlen))

/-- The rows together add the product to what stands in P. -/
theorem multiplyRows_modEq (B xs ps : List Byte) (hlen : ps.length ≤ B.length) :
    bytesValue (multiplyRows B xs ps) ≡ bytesValue ps + bytesValue xs * bytesValue B [MOD 256 ^ ps.length] := by
  induction xs generalizing ps with
  | nil => simp [multiplyRows, Nat.ModEq.refl]
  | cons x xs ih =>
    have hrow := multiplyRow_modEq x 0 ps B hlen
    have hlength := multiplyRow_length x 0 ps B hlen
    rw [multiplyRows]
    split
    next hnil =>
      rw [hnil] at hlength
      rw [← hlength]
      exact Nat.modEq_one
    next p rest hcons =>
      rw [hcons] at hlength hrow
      rw [bytesValue_cons] at hrow
      have hrest : rest.length ≤ B.length := by rw [List.length_cons] at hlength; omega
      have hrows := ((ih rest hrest).mul_left' 256).add_left p.toNat
      rw [← Nat.pow_succ', Nat.succ_eq_add_one, ← List.length_cons, hlength] at hrows
      calc bytesValue (p :: multiplyRows B xs rest)
        _ = p.toNat + 256 * bytesValue (multiplyRows B xs rest) := bytesValue_cons ..
        _ ≡ p.toNat + 256 * (bytesValue rest + bytesValue xs * bytesValue B) [MOD 256 ^ ps.length] := hrows
        _ = p.toNat + 256 * bytesValue rest + 256 * bytesValue xs * bytesValue B := by ring
        _ ≡ bytesValue ps + x.toNat * bytesValue B + 0 + 256 * bytesValue xs * bytesValue B [MOD 256 ^ ps.length] :=
          hrow.add_right _
        _ = bytesValue ps + bytesValue (x :: xs) * bytesValue B := by rw [bytesValue_cons]; ring

/-- Settles O41: the rows add up to the product, and what is left out is a multiple of 2^W. -/
theorem longMultiplierEqualsMultiply : Obligations.LongMultiplierEqualsMultiply := by
  intro n a b
  have h := multiplyRows_modEq (toBytes b).toList (toBytes a).toList (List.replicate n 0#8) (by simp)
  rw [bytesValue_toBytes, bytesValue_toBytes, bytesValue_replicate_zero, List.length_replicate, Nat.zero_add] at h
  rw [multiplyBytes, concatBytes_eq_ofNat, ofNat_eq_of_modEq h, multiply]

/-! The restoring divider. -/

/-- What the loop of 44_arith.md R149 keeps: with i bits of a to come, quotient times divisor plus remainder, the remainder taken
at place i, is the dividend so far, and the remainder is below the divisor. -/
theorem restoringLoop_spec {W : Nat} (a b : BitVec W) (i q r : Nat) (hr : r < b.toNat) :
    (restoringLoop a b i (q, r)).1 * b.toNat + (restoringLoop a b i (q, r)).2 =
        q * b.toNat + r * 2 ^ i + a.toNat % 2 ^ i ∧
      (restoringLoop a b i (q, r)).2 < b.toNat := by
  induction i generalizing q r with
  | zero => simp [restoringLoop, hr, Nat.mod_one]
  | succ i ih =>
    have hbit : a.toNat % 2 ^ (i + 1) = a.toNat % 2 ^ i + 2 ^ i * (a.getLsbD i).toNat := by
      rw [Nat.mod_pow_succ, ← BitVec.testBit_toNat, Nat.toNat_testBit]
    have hone : (a.getLsbD i).toNat ≤ 1 := Bool.toNat_le _
    rw [restoringLoop]
    split
    next hge =>
      obtain ⟨hvalue, hlt⟩ := ih (q + 2 ^ i) (2 * r + (a.getLsbD i).toNat - b.toNat) (by omega)
      refine ⟨hvalue.trans ?_, hlt⟩
      obtain ⟨d, hd⟩ := Nat.exists_eq_add_of_le hge
      rw [hd, Nat.add_sub_cancel_left, hbit]
      calc (q + 2 ^ i) * b.toNat + d * 2 ^ i + a.toNat % 2 ^ i
        _ = q * b.toNat + (b.toNat + d) * 2 ^ i + a.toNat % 2 ^ i := by ring
        _ = q * b.toNat + (2 * r + (a.getLsbD i).toNat) * 2 ^ i + a.toNat % 2 ^ i := by rw [hd]
        _ = q * b.toNat + r * 2 ^ (i + 1) + (a.toNat % 2 ^ i + 2 ^ i * (a.getLsbD i).toNat) := by ring
    next hlt =>
      obtain ⟨hvalue, hlt⟩ := ih q (2 * r + (a.getLsbD i).toNat) (by omega)
      refine ⟨hvalue.trans ?_, hlt⟩
      rw [hbit]
      ring

theorem restoringDivMod_eq_divMod {W : Nat} (a b : BitVec W) : restoringDivMod a b = divMod a b := by
  rw [restoringDivMod, divMod]
  split
  next => rfl
  next hb =>
    have hpos : 0 < b.toNat := Nat.pos_of_ne_zero hb
    obtain ⟨hvalue, hlt⟩ := restoringLoop_spec a b W 0 0 hpos
    rw [Nat.mod_eq_of_lt a.isLt, Nat.zero_mul, Nat.zero_mul, Nat.zero_add, Nat.add_comm, Nat.mul_comm]
      at hvalue
    obtain ⟨hq, hr⟩ := (Nat.div_mod_unique hpos).2 ⟨hvalue, hlt⟩
    rw [hq, hr]

/-- Settles O42: the loop ends with the quotient and the remainder. -/
theorem restoringDividerEqualsDivideAndModulo : Obligations.RestoringDividerEqualsDivideAndModulo := fun _ a b => by
  rw [restoringDivMod_eq_divMod]
  exact ⟨rfl, rfl, rfl⟩

end Sys2Proof.Machine

/-! SUPPORT. Assembled requests: a literal that fits its operand is read back as it was written (30_encoding.md R67 to R70, R73;
log entry 14). -/

namespace Sys2Proof.Machine

/-- A literal that fits W bits is placed whole on a bus and read whole from it. -/
theorem setWidth_ofNat_toNat {w : Width} {x : Nat} (hx : x < 2 ^ w.bits) :
    ((BitVec.ofNat 128 x).setWidth w.bits).toNat = x := by
  have hbus : x < 2 ^ 128 := Nat.lt_of_lt_of_le hx (Nat.pow_le_pow_right (by decide) w.bits_le)
  rw [BitVec.toNat_setWidth, BitVec.toNat_ofNat, Nat.mod_eq_of_lt hbus, Nat.mod_eq_of_lt hx]

/-- Byte literals, placed in the lanes of A, are read back from them. -/
theorem lanesA_of_literals {r : Request} {w : Width} {bs : List Nat} (hlen : bs.length = w.bytes)
    (hfit : ∀ b ∈ bs, b < 256) (ha : r.a = concatBytes 128 (bs.map (BitVec.ofNat 8))) :
    (r.lanesA w.bytes).toList.map BitVec.toNat = bs := by
  refine List.ext_getElem (by simp [hlen]) fun i _ hi => ?_
  have hlane : i < 16 := Nat.lt_of_lt_of_le (hlen ▸ hi) w.bytes_le
  rw [List.getElem_map, Vector.getElem_toList, Request.lanesA_getElem, ha, lane_concatBytes _ hlane,
    List.getD_eq_getElem _ _ (by simpa), List.getElem_map, BitVec.toNat_ofNat]
  exact Nat.mod_eq_of_lt (hfit _ (List.getElem_mem hi))

/-- Settles O58: a request stands for literals that fit, in the form that its instruction has. -/
theorem assembledOperandsAreTheLiteralsWritten : Obligations.AssembledOperandsAreTheLiteralsWritten := by
  intro i ops r h
  unfold requestOf at h
  split at h
  next a hform =>
    split at h
    next hfit =>
      cases h
      simp only [hform]
      refine ⟨decode_encode i, fun _ => ?_, nofun, nofun, nofun⟩
      rw [Request.valueA, setWidth_ofNat_toNat hfit]
    next => cases h
  next a b hform =>
    split at h
    next hfit =>
      cases h
      simp only [hform]
      refine ⟨decode_encode i, nofun, fun _ => ?_, nofun, nofun⟩
      rw [Request.valueA, Request.valueB, setWidth_ofNat_toNat hfit.1, setWidth_ofNat_toNat hfit.2]
    next => cases h
  next a k hform =>
    split at h
    next hfit =>
      cases h
      have hk : (BitVec.ofNat 32 k).toNat = k := Nat.mod_eq_of_lt hfit.2
      simp only [hform]
      refine ⟨decode_encode i, nofun, nofun, fun _ => ⟨?_, BitVec.isLt _⟩, nofun⟩
      rw [Request.valueA, Request.amount, setWidth_ofNat_toNat hfit.1, hk]
    next => cases h
  next hform =>
    split at h
    next hfit =>
      cases h
      simp only [hform]
      refine ⟨decode_encode i, nofun, nofun, nofun, fun _ => (lanesA_of_literals hfit.1 ?_ rfl).symm⟩
      simpa using hfit.2
    next => cases h
  next => cases h

end Sys2Proof.Machine
